-- ==== Sys2Proof/Word.lean ====
section
/-!
DEFINITION. The words of the block, each a bit vector of the width that R7 and R20 give (00_scope.md, 10_state.md).
Every value is unsigned and bit 0 is the least significant bit (R8).
-/

namespace Sys2Proof

/-- A command word or a response word, 32 bits (R60, R68). -/
abbrev Word := BitVec 32

/-- A 24-bit RGB triple, R in [23:16], G in [15:8], B in [7:0] (R11); also a dedup key (R21). -/
abbrev Rgb := BitVec 24

/-- A 15-bit SnesColor `bbbbbgggggrrrrr` (R13, R91). -/
abbrev Color := BitVec 15

/-- An 8-bit ColorIndex, a byte of a packed tile, or a byte of the serialized palette (R28, R40). -/
abbrev Byte := BitVec 8

/-- The 24-bit operand OPD of a command, or the DATA field of a response (R60, R68). -/
abbrev Data := BitVec 24

end Sys2Proof
end

