-- ==== Sys2Proof/Syntax.lean ====
section
/-!
DEFINITION. The commands of the block, one constructor for each row of spec/opcode_table.json (R63), with the operand
field of its form (R61) at the width the form gives it.
-/

namespace Sys2Proof

/-- One command (R63). The operand widths are those of the forms of R61, so no operand can be too wide for its field. -/
inductive Instr where
  /-- NOP, form N (R80). -/
  | nop
  /-- CLR, form N (R81). -/
  | clr
  /-- SETBPP, form B: b = OPD[2:0] (R82). -/
  | setbpp (b : BitVec 3)
  /-- STAT, form N (R83). -/
  | stat
  /-- INS, form C: rgb = OPD[23:0] (R101). -/
  | ins (rgb : Rgb)
  /-- LKP, form C: rgb = OPD[23:0] (R121). -/
  | lkp (rgb : Rgb)
  /-- CVT, form C: rgb = OPD[23:0] (R92). -/
  | cvt (rgb : Rgb)
  /-- RDP, form I8: i = OPD[7:0] (R105). -/
  | rdp (i : BitVec 8)
  /-- RDPB, form I9: j = OPD[8:0] (R106). -/
  | rdpb (j : BitVec 9)
  /-- TSEL, form I6: s = OPD[5:0] (R135). -/
  | tsel (slot : BitVec 6)
  /-- LDT, form C: rgb = OPD[23:0] (R122). -/
  | ldt (rgb : Rgb)
  /-- LDI, form I8: v = OPD[7:0] (R136). -/
  | ldi (v : BitVec 8)
  /-- RDT, form I5: k = OPD[4:0] (R137). -/
  | rdt (k : BitVec 5)
  deriving DecidableEq, Repr

/-- The thirteen mnemonics of R63, without operands. -/
inductive Mnemonic where
  | nop | clr | setbpp | stat
  | ins | lkp | cvt | rdp | rdpb
  | tsel | ldt | ldi | rdt
  deriving DecidableEq, Repr

/-- The operand forms of R61. -/
inductive Form where
  /-- No operand. -/
  | n
  /-- A 24-bit RGB triple. -/
  | c
  /-- A 3-bit bpp. -/
  | b
  /-- An 8-bit index. -/
  | i8
  /-- A 9-bit index. -/
  | i9
  /-- A 6-bit slot. -/
  | i6
  /-- A 5-bit byte position. -/
  | i5
  deriving DecidableEq, Repr

/-- The causes of a command error (R151), by the spec's names. `badOpcode` and `reservedBits` are the decoder's, `outOfRange`
is a meaning's. -/
inductive CmdError where
  /-- BAD_OPCODE: OPC is not assigned (R65). -/
  | badOpcode
  /-- RESERVED_BITS: a reserved operand bit is 1 (R66). -/
  | reservedBits
  /-- OUT_OF_RANGE: an operand value is not legal in the current state (R151). -/
  | outOfRange
  deriving DecidableEq, Repr

end Sys2Proof
end

