-- ==== Sys2Proof/Decode.lean ====
section
/-!
DEFINITION. From a command word to a command or a named error (30_encoding.md), and the encoder beside it. A command is
one 32-bit word that moves whole: there are no byte lanes (R45, R60).
-/

namespace Sys2Proof

/-- OPC of each command (R63). -/
def Mnemonic.opcode : Mnemonic → BitVec 8
  | .nop => 0x00#8
  | .clr => 0x01#8
  | .setbpp => 0x02#8
  | .stat => 0x03#8
  | .ins => 0x10#8
  | .lkp => 0x11#8
  | .cvt => 0x12#8
  | .rdp => 0x13#8
  | .rdpb => 0x14#8
  | .tsel => 0x20#8
  | .ldt => 0x21#8
  | .ldi => 0x22#8
  | .rdt => 0x23#8

/-- The operand form of each command (R61, R63). -/
def Mnemonic.form : Mnemonic → Form
  | .nop => .n
  | .clr => .n
  | .setbpp => .b
  | .stat => .n
  | .ins => .c
  | .lkp => .c
  | .cvt => .c
  | .rdp => .i8
  | .rdpb => .i9
  | .tsel => .i6
  | .ldt => .c
  | .ldi => .i8
  | .rdt => .i5

/-- RESMASK: the operand bits that must be 0, for each form (R61, R64). -/
def Form.resMask : Form → Data
  | .n => 0xFFFFFF#24
  | .c => 0x000000#24
  | .b => 0xFFFFF8#24
  | .i8 => 0xFFFF00#24
  | .i9 => 0xFFFE00#24
  | .i6 => 0xFFFFC0#24
  | .i5 => 0xFFFFE0#24

/-- The width of the operand field of each form (R61). -/
def Form.width : Form → Nat
  | .n => 0
  | .c => 24
  | .b => 3
  | .i8 => 8
  | .i9 => 9
  | .i6 => 6
  | .i5 => 5

/-- Every mnemonic, in the order of R63. -/
def Mnemonic.all : List Mnemonic :=
  [.nop, .clr, .setbpp, .stat, .ins, .lkp, .cvt, .rdp, .rdpb, .tsel, .ldt, .ldi, .rdt]

/-- OPC, bits [31:24] of a command word (R60). -/
def opcodeField (w : Word) : BitVec 8 := w.extractLsb' 24 8

/-- OPD, bits [23:0] of a command word (R60). -/
def operandField (w : Word) : Data := w.extractLsb' 0 24

/-- The command an opcode selects; none for the 243 unassigned opcodes (R63, R65). -/
def mnemonicOf (opc : BitVec 8) : Option Mnemonic :=
  Mnemonic.all.find? fun m => m.opcode == opc

/-- The command with its operand taken "directly from its bits" (R61, R62). -/
def Mnemonic.instr (m : Mnemonic) (opd : Data) : Instr :=
  match m with
  | .nop => .nop
  | .clr => .clr
  | .setbpp => .setbpp (opd.extractLsb' 0 3)
  | .stat => .stat
  | .ins => .ins opd
  | .lkp => .lkp opd
  | .cvt => .cvt opd
  | .rdp => .rdp (opd.extractLsb' 0 8)
  | .rdpb => .rdpb (opd.extractLsb' 0 9)
  | .tsel => .tsel (opd.extractLsb' 0 6)
  | .ldt => .ldt opd
  | .ldi => .ldi (opd.extractLsb' 0 8)
  | .rdt => .rdt (opd.extractLsb' 0 5)

/-- Decoding a command word: BAD_OPCODE first, RESERVED_BITS second (R64, R65, R66, R152). Total on all 2^32 words. -/
def decode (w : Word) : Except CmdError Instr :=
  match mnemonicOf (opcodeField w) with
  | none => .error .badOpcode
  | some m =>
    if operandField w &&& m.form.resMask = 0#24 then .ok (m.instr (operandField w))
    else .error .reservedBits

/-- The mnemonic of a command (R63). -/
def Instr.mnemonic : Instr → Mnemonic
  | .nop => .nop
  | .clr => .clr
  | .setbpp _ => .setbpp
  | .stat => .stat
  | .ins _ => .ins
  | .lkp _ => .lkp
  | .cvt _ => .cvt
  | .rdp _ => .rdp
  | .rdpb _ => .rdpb
  | .tsel _ => .tsel
  | .ldt _ => .ldt
  | .ldi _ => .ldi
  | .rdt _ => .rdt

/-- The 24-bit operand of a command: its field, zero-extended (R61, R62). -/
def Instr.operand : Instr → Data
  | .nop => 0#24
  | .clr => 0#24
  | .setbpp b => b.setWidth 24
  | .stat => 0#24
  | .ins rgb => rgb
  | .lkp rgb => rgb
  | .cvt rgb => rgb
  | .rdp i => i.setWidth 24
  | .rdpb j => j.setWidth 24
  | .tsel slot => slot.setWidth 24
  | .ldt rgb => rgb
  | .ldi v => v.setWidth 24
  | .rdt k => k.setWidth 24

/-- The word of a command: OPC then OPD (R60, R70). -/
def encode (i : Instr) : Word := i.mnemonic.opcode ++ i.operand

/-- The instruction in an opcode-table word of `nbits` bits whose bits are `w`; the bits above `nbits` are 0. No command
is longer than 32 bits (R60, R67; log entry 12). -/
def decodeTableWord (nbits w : Nat) : Option Instr :=
  if nbits ≤ 32 then (decode (BitVec.ofNat 32 (w % 2 ^ nbits))).toOption else none

/-- The fixed bits of an opcode-table row: match and mask of spec/opcode_table.json. -/
def Mnemonic.row : Mnemonic → Word × Word
  | .nop => (0x00000000#32, 0xFFFFFFFF#32)
  | .clr => (0x01000000#32, 0xFFFFFFFF#32)
  | .setbpp => (0x02000000#32, 0xFFFFFFF8#32)
  | .stat => (0x03000000#32, 0xFFFFFFFF#32)
  | .ins => (0x10000000#32, 0xFF000000#32)
  | .lkp => (0x11000000#32, 0xFF000000#32)
  | .cvt => (0x12000000#32, 0xFF000000#32)
  | .rdp => (0x13000000#32, 0xFFFFFF00#32)
  | .rdpb => (0x14000000#32, 0xFFFFFE00#32)
  | .tsel => (0x20000000#32, 0xFFFFFFC0#32)
  | .ldt => (0x21000000#32, 0xFF000000#32)
  | .ldi => (0x22000000#32, 0xFFFFFF00#32)
  | .rdt => (0x23000000#32, 0xFFFFFFE0#32)

/-- A word is an instance of a row: its bits under the row's mask are the row's match. -/
def Mnemonic.matchesRow (m : Mnemonic) (w : Word) : Bool := w &&& m.row.2 == m.row.1

end Sys2Proof
end

