-- ==== Sys2Proof/Config.lean ====
section
/-!
DEFINITION. What the spec leaves open. Each constant here has no body that Lean can evaluate, so a proof holds
whatever its value is.
-/

namespace Sys2Proof

/-- KEY after the `n`-th power-on reset event: "KEY and COL unspecified" (R34, R170, I9). A free value (log entry 2). -/
opaque Config.resetKey (n : Nat) : Vector Rgb 256

/-- COL after the `n`-th power-on reset event: "KEY and COL unspecified" (R34, R170, I9). A free value (log entry 2). -/
opaque Config.resetCol (n : Nat) : Vector Color 256

/-- LATENCY, the open time from command to response: "a parameter no rule depends on" (R7, R181, D25). No definition of
the model reads it (log entry 9). -/
opaque Config.latency : Nat

end Sys2Proof
end

