-- ==== Sys2Proof/Machine/State.lean ====
section
/-!
DEFINITION. The state of the block (R20 in 10_state.md), plain data, with the command channel the spec gives it to the
host (R60, R182), and the state after power-on reset (R34, R170).
-/

namespace Sys2Proof.Machine

/-- What the outside world does to the block, one event at a time (log entry 3). -/
inductive HostEvent where
  /-- The host sends a command word (R60). -/
  | command (w : Word)
  /-- Power-on reset (R170). `lost` is the command in progress when reset is asserted, if there is one: its response is
  lost and its effects do not matter (R170, I17; log entry 13). -/
  | powerOnReset (lost : Option Word)
  /-- A second host sends a command word, which the model refuses (R51, I16; log entry 6). -/
  | secondHostCommand (w : Word)
  deriving DecidableEq, Repr

/-- The block and its channel. The first seven fields are the complete architectural state of R20; the last three are
the model's own (log entries 2, 3 and 4). -/
structure State where
  /-- KEY, the RGB triple of each palette entry (R21). -/
  key : Vector Rgb 256
  /-- COL, the SnesColor of each palette entry (R22). -/
  col : Vector Color 256
  /-- COUNT, the number of valid entries (R23). -/
  count : BitVec 9
  /-- OVF, the sticky "palette cap exceeded" warning (R25). -/
  ovf : Bool
  /-- BPPSEL: false = 2 bpp, true = 4 bpp (R26). -/
  bppsel : Bool
  /-- TBUF, the ColorIndex of each pixel of the current tile (R28). -/
  tbuf : Vector Byte 64
  /-- TPTR, the slot the next LDT or LDI writes (R29). -/
  tptr : BitVec 6
  /-- The events still to come, oldest first (R49; log entry 3). -/
  input : List HostEvent
  /-- The responses returned so far, oldest first (R60, R182; log entry 4). -/
  output : List Word
  /-- How many times a reset event has drawn free contents for KEY and COL (log entry 2). -/
  draws : Nat
  deriving DecidableEq, Repr

/-- The reasons a step can fault: there are none. A command error is a response and no trap (R150), the block has no traps
or interrupts (R156, R157) and never stops by itself (R182; log entry 8). Safe: an error response is modelled as the
next state the spec gives. -/
inductive Fault where
  deriving DecidableEq, Repr

/-- The reasons a step can be refused. -/
inductive Refusal where
  /-- Raised by an arm of `exec` for an instruction that has no meaning yet. No arm does. Safe. -/
  | notModelled (mnemonic : String)
  /-- Raised by `step` when the next event is a second host's command: "A Lean model should refuse it rather than
  interleave" (R51, I16; log entry 6). Safe: the run ends there. -/
  | secondHost
  deriving DecidableEq, Repr

/-- The state right after power-on reset (R34, R170): COUNT, OVF, TPTR and TBUF 0, BPPSEL 1. The spec leaves KEY and COL
unspecified; they are 0 here (DESIGN CHOICE, log entry 1). The channel is empty: a program is loaded from outside
(log entries 3 and 4). -/
def State.reset : State where
  key := Vector.replicate 256 0#24
  col := Vector.replicate 256 0#15
  count := 0#9
  ovf := false
  bppsel := true
  tbuf := Vector.replicate 64 0#8
  tptr := 0#6
  input := []
  output := []
  draws := 0

end Sys2Proof.Machine
end

