-- ==== Sys2Proof/Machine/Operands.lean ====
section
/-!
DEFINITION. The operands of the commands and the combinational functions of them: the channels of a triple (R11), the
color_8to5_truncator (41_color_truncator.md), the format select (R26, R27, R133) and the slots of a tile (R130).
-/

namespace Sys2Proof.Machine

/-- R = rgb[23:16] (R11). -/
def red (rgb : Rgb) : BitVec 8 := rgb.extractLsb' 16 8

/-- G = rgb[15:8] (R11). -/
def green (rgb : Rgb) : BitVec 8 := rgb.extractLsb' 8 8

/-- B = rgb[7:0] (R11). -/
def blue (rgb : Rgb) : BitVec 8 := rgb.extractLsb' 0 8

/-- `trunc5(c) = c[7:3]`: the low three bits are discarded, with no rounding (R90). -/
def trunc5 (c : BitVec 8) : BitVec 5 := c.extractLsb' 3 5

/-- `snes(rgb) = trunc5(B) ++ trunc5(G) ++ trunc5(R)` (R91). -/
def snes (rgb : Rgb) : Color := trunc5 (blue rgb) ++ trunc5 (green rgb) ++ trunc5 (red rgb)

/-- `bpp()`: 4 when BPPSEL = 1, else 2 (R26). -/
def State.bpp (s : State) : Nat := if s.bppsel then 4 else 2

/-- `capacity(b)`: 4 colors at 2 bpp, 16 at 4 bpp (R27). -/
def capacity (b : Nat) : Nat := if b = 2 then 4 else 16

/-- `tile_bytes(b)`: 16 bytes at 2 bpp, 32 at 4 bpp (R133). -/
def tileBytes (b : Nat) : Nat := if b = 2 then 16 else 32

/-- The BPPSEL value that SETBPP's operand selects, if it is legal: 2 or 4 (R82). -/
def bppselOf (b : BitVec 3) : Option Bool :=
  if b = 2#3 then some false else if b = 4#3 then some true else none

/-- The entry that byte j of the serialized palette belongs to: `j >> 1` (R42, R106). -/
def entryOfByte (j : BitVec 9) : BitVec 8 := j.extractLsb' 1 8

/-- The slot of pixel (x, y): `s = y*8 + x` (R28, R130). -/
def slotOf (x y : BitVec 3) : BitVec 6 := y ++ x

/-- The tile row of byte k of a packed tile: `y = (k & 0xF) >> 1` (R132). -/
def rowOfByte (k : BitVec 5) : BitVec 3 := k.extractLsb' 1 3

/-- The plane of byte k of a packed tile: `p = 2*pair + (k & 1)` with `pair = k >> 4` (R132). -/
def planeOfByte (k : BitVec 5) : BitVec 2 := k.extractLsb' 4 1 ++ k.extractLsb' 0 1

end Sys2Proof.Machine
end

