-- ==== Sys2Proof/Machine/Flags.lean ====
section
/-!
DEFINITION. The response word and its flags (R68), the error codes (R151), and the status bits: CAPW (R27) and STATUS (R30).
-/

namespace Sys2Proof.Machine

/-- The response flags that `respond` names (R10, R68). -/
structure RespFlags where
  /-- MISS, bit 30. -/
  miss : Bool
  /-- NEW, bit 29. -/
  new : Bool
  /-- DROP, bit 28. -/
  drop : Bool
  deriving DecidableEq, Repr

/-- No flag: `respond({}, …)`. -/
def noFlags : RespFlags := ⟨false, false, false⟩

/-- `respond({MISS}, …)` (R121, R122). -/
def missFlag : RespFlags := ⟨true, false, false⟩

/-- `respond({NEW}, …)` (R101). -/
def newFlag : RespFlags := ⟨false, true, false⟩

/-- `respond({MISS, DROP}, …)` (R101). -/
def missDropFlags : RespFlags := ⟨true, false, true⟩

/-- The response of a command that ends in `respond(flags, data)`: ERR = 0, ECODE = 0 (R10, R68). -/
def okWord (f : RespFlags) (data : Data) : Word :=
  0#1 ++ BitVec.ofBool f.miss ++ BitVec.ofBool f.new ++ BitVec.ofBool f.drop ++ 0#4 ++ data

/-- ECODE of each command error (R151). -/
def errorCode : CmdError → BitVec 4
  | .badOpcode => 1#4
  | .reservedBits => 2#4
  | .outOfRange => 3#4

/-- The response of a command that raises CmdError: ERR = 1, ECODE = code, every other bit 0 (R10, R150). -/
def errorWord (e : CmdError) : Word := 1#1 ++ 0#3 ++ errorCode e ++ 0#24

/-- ERR of a response (R68). -/
def respErr (r : Word) : Bool := r.getLsbD 31

/-- MISS of a response (R68). -/
def respMiss (r : Word) : Bool := r.getLsbD 30

/-- NEW of a response (R68). -/
def respNew (r : Word) : Bool := r.getLsbD 29

/-- DROP of a response (R68). -/
def respDrop (r : Word) : Bool := r.getLsbD 28

/-- ECODE of a response (R68). -/
def respEcode (r : Word) : BitVec 4 := r.extractLsb' 24 4

/-- DATA of a response (R68). -/
def respData (r : Word) : Data := r.extractLsb' 0 24

/-- CAPW: COUNT exceeds the capacity of the selected format (R27). Computed, never stored. -/
def State.capw (s : State) : Bool := decide (capacity s.bpp < s.count.toNat)

/-- STATUS: `TPTR ++ BPPSEL ++ capw ++ OVF ++ COUNT`, zero-extended to 24 bits (R30, R83). -/
def State.statusWord (s : State) : Data :=
  0#6 ++ s.tptr ++ BitVec.ofBool s.bppsel ++ BitVec.ofBool s.capw ++ BitVec.ofBool s.ovf ++ s.count

end Sys2Proof.Machine
end

