-- ==== Sys2Proof/Machine/Ops.lean ====
section
/-!
DEFINITION. The named operations over the state that the meanings share: ending a command with a response or a command
error, the search of the palette and its append, the tile load, the packer, and power-on reset.
-/

namespace Sys2Proof.Machine

/-! ### Ending a command -/

/-- `respond(flags, data)`: the command ends and returns its response (R10, R68). -/
def State.respond (s : State) (f : RespFlags) (data : Data) : State :=
  { s with output := s.output ++ [okWord f data] }

/-- `raise CmdError(code)`, the one way a command goes wrong: it writes no state, its response is
`0x80000000 | (code << 24)`, and the block then takes the next command normally (R10, R150). There is no trap entry, no
saved state and no return (R157). -/
def State.raise (s : State) (e : CmdError) : State :=
  { s with output := s.output ++ [errorWord e] }

/-! ### The palette -/

/-- The keys of the valid entries, in index order: KEY[0..COUNT-1] (R14, R24). -/
def State.validKeys (s : State) : List Rgb := s.key.toList.take s.count.toNat

/-- `find(rgb)`: an index i < COUNT with KEY[i] = rgb, or none (R100). All 24 bits are compared. Where two valid entries
hold the same key, which no run reaches (INV2 of R31), it is the lowest (DESIGN CHOICE, log entry 7). -/
def State.find (s : State) (rgb : Rgb) : Option Nat := s.validKeys.findIdx? fun k => k == rgb

/-- `lookup(rgb)`: the index found and miss = 0, or index 0 and miss = 1 (R120). -/
def State.lookup (s : State) (rgb : Rgb) : Byte × Bool :=
  match s.find rgb with
  | some i => (BitVec.ofNat 8 i, false)
  | none => (0#8, true)

/-- Appending an entry at index COUNT: KEY, COL and COUNT together (R101, R47). -/
def State.appendEntry (s : State) (rgb : Rgb) : State :=
  { s with
    key := s.key.setIfInBounds s.count.toNat rgb
    col := s.col.setIfInBounds s.count.toNat (snes rgb)
    count := s.count + 1#9 }

/-- Setting the sticky overflow warning (R25, R102). -/
def State.markOverflow (s : State) : State := { s with ovf := true }

/-- COL[i]. -/
def State.colorAt (s : State) (i : BitVec 8) : Color := s.col[i.toNat]'i.isLt

/-- The 16-bit field of entry i in the serialized palette: `zext_16(COL[i])` (R42, R105). -/
def State.colorField (s : State) (i : BitVec 8) : BitVec 16 := (s.colorAt i).setWidth 16

/-- Byte j of the serialized palette, low byte first (R42, R106). -/
def State.serializedByte (s : State) (j : BitVec 9) : Byte :=
  if j.getLsbD 0 then (s.colorField (entryOfByte j)).extractLsb' 8 8
  else (s.colorField (entryOfByte j)).extractLsb' 0 8

/-- Emptying the palette and the tile buffer, BPPSEL kept and KEY and COL not written (R81). -/
def State.clear (s : State) : State :=
  { s with
    count := 0#9
    ovf := false
    tptr := 0#6
    tbuf := Vector.replicate 64 0#8 }

/-! ### The tile -/

/-- Selecting the format (R82). -/
def State.setBppsel (s : State) (b : Bool) : State := { s with bppsel := b }

/-- Setting the slot pointer (R135). -/
def State.setTptr (s : State) (slot : BitVec 6) : State := { s with tptr := slot }

/-- `TBUF[TPTR] <- v` and then `TPTR <- (TPTR + 1) mod 64` (R29). -/
def State.loadSlot (s : State) (v : Byte) : State :=
  { s with
    tbuf := s.tbuf.set s.tptr.toNat v s.tptr.isLt
    tptr := s.tptr + 1#6 }

/-- TBUF[slot]. -/
def State.slotAt (s : State) (slot : BitVec 6) : Byte := s.tbuf[slot.toNat]'slot.isLt

/-- The pixel columns of a tile row, left to right. -/
def columns : List (BitVec 3) := [0#3, 1#3, 2#3, 3#3, 4#3, 5#3, 6#3, 7#3]

/-- `plane_byte(y, p)`: the OR over x of `TBUF[y*8 + x][p] << (7 - x)` (R131, R43). -/
def State.planeByte (s : State) (y : BitVec 3) (p : BitVec 2) : Byte :=
  columns.foldl
    (fun acc x =>
      acc ||| ((BitVec.ofBool ((s.slotAt (slotOf x y)).getLsbD p.toNat)).setWidth 8 <<< (7 - x.toNat)))
    0#8

/-- `pack_byte(k)`: byte k of the packed tile (R132). -/
def State.packByte (s : State) (k : BitVec 5) : Byte := s.planeByte (rowOfByte k) (planeOfByte k)

/-! ### Reset and the channel -/

/-- The power-on reset event: every element to its value of R34, KEY and COL to free values (R170; log entry 2). What
the host has still to send, and the responses it already has, are not the block's to reset (log entries 3, 4, 13). -/
def State.powerOnReset (s : State) : State where
  key := Config.resetKey s.draws
  col := Config.resetCol s.draws
  count := 0#9
  ovf := false
  bppsel := true
  tbuf := Vector.replicate 64 0#8
  tptr := 0#6
  input := s.input
  output := s.output
  draws := s.draws + 1

/-- The channel with the events `l` still to come. -/
def State.withInput (s : State) (l : List HostEvent) : State := { s with input := l }

end Sys2Proof.Machine
end

