-- ==== Sys2Proof/Machine/Control.lean ====
section
/-!
DEFINITION. The control commands NOP, CLR, SETBPP and STAT (40_control.md).
-/

namespace Sys2Proof.Machine

/-- NOP: response 0, no state written (R80). -/
def execNop (s : State) : Host.Outcome State Fault Refusal :=
  .next (s.respond noFlags 0#24)

/-- CLR: COUNT, OVF, TPTR and TBUF to 0 (R81, R171). -/
def execClr (s : State) : Host.Outcome State Fault Refusal :=
  .next (s.clear.respond noFlags 0#24)

/-- SETBPP: b = 2 selects 2 bpp, b = 4 selects 4 bpp, every other b raises CmdError(3) (R82). -/
def execSetbpp (b : BitVec 3) (s : State) : Host.Outcome State Fault Refusal :=
  match bppselOf b with
  | some sel => .next ((s.setBppsel sel).respond noFlags 0#24)
  | none => .next (s.raise .outOfRange)

/-- STAT: STATUS in DATA, no state written (R83, R30). -/
def execStat (s : State) : Host.Outcome State Fault Refusal :=
  .next (s.respond noFlags s.statusWord)

end Sys2Proof.Machine
end

