-- ==== Sys2Proof/Machine/PaletteDedup.lean ====
section
/-!
DEFINITION. The palette_dedup_engine's commands INS, RDP and RDPB (42_palette_dedup.md).
-/

namespace Sys2Proof.Machine

/-- INS: a triple already present answers its index; a novel one is appended while COUNT < 256, and dropped with the
overflow warning after that (R101, R102). -/
def execIns (rgb : Rgb) (s : State) : Host.Outcome State Fault Refusal :=
  match s.find rgb with
  | some i => .next (s.respond noFlags (BitVec.ofNat 24 i))
  | none =>
    if s.count.toNat < 256 then .next ((s.appendEntry rgb).respond newFlag (s.count.setWidth 24))
    else .next (s.markOverflow.respond missDropFlags 0#24)

/-- RDP: entry i as a 16-bit word; i ≥ COUNT raises CmdError(3) (R105). -/
def execRdp (i : BitVec 8) (s : State) : Host.Outcome State Fault Refusal :=
  if s.count.toNat ≤ i.toNat then .next (s.raise .outOfRange)
  else .next (s.respond noFlags ((s.colorField i).setWidth 24))

/-- RDPB: byte j of the serialized palette; j ≥ 2 × COUNT raises CmdError(3) (R106). -/
def execRdpb (j : BitVec 9) (s : State) : Host.Outcome State Fault Refusal :=
  if 2 * s.count.toNat ≤ j.toNat then .next (s.raise .outOfRange)
  else .next (s.respond noFlags ((s.serializedByte j).setWidth 24))

end Sys2Proof.Machine
end

