-- ==== Sys2Proof/Machine/PaletteLookup.lean ====
section
/-!
DEFINITION. The palette_lookup_mux's commands LKP and LDT (43_palette_lookup.md).
-/

namespace Sys2Proof.Machine

/-- LKP: the index of the triple, or MISS and 0; no state written (R121). -/
def execLkp (rgb : Rgb) (s : State) : Host.Outcome State Fault Refusal :=
  match s.lookup rgb with
  | (idx, false) => .next (s.respond noFlags (idx.setWidth 24))
  | (_, true) => .next (s.respond missFlag 0#24)

/-- LDT: the index of the triple, 0 on a miss, goes into slot TPTR and TPTR advances mod 64 (R122). -/
def execLdt (rgb : Rgb) (s : State) : Host.Outcome State Fault Refusal :=
  match s.lookup rgb with
  | (idx, false) => .next ((s.loadSlot idx).respond noFlags (idx.setWidth 24))
  | (idx, true) => .next ((s.loadSlot idx).respond missFlag 0#24)

end Sys2Proof.Machine
end

