-- ==== Sys2Proof/Machine/TilePacker.lean ====
section
/-!
DEFINITION. The tile_bitplane_packer's commands TSEL, LDI and RDT (44_tile_packer.md).
-/

namespace Sys2Proof.Machine

/-- TSEL: TPTR becomes the operand (R135). -/
def execTsel (slot : BitVec 6) (s : State) : Host.Outcome State Fault Refusal :=
  .next ((s.setTptr slot).respond noFlags (slot.setWidth 24))

/-- LDI: the raw index goes into slot TPTR, all 8 bits, and TPTR advances mod 64 (R136, R28). -/
def execLdi (v : BitVec 8) (s : State) : Host.Outcome State Fault Refusal :=
  .next ((s.loadSlot v).respond noFlags (v.setWidth 24))

/-- RDT: byte k of the packed tile; k ≥ tile_bytes(bpp()) raises CmdError(3); no state written (R137). -/
def execRdt (k : BitVec 5) (s : State) : Host.Outcome State Fault Refusal :=
  if tileBytes s.bpp ≤ k.toNat then .next (s.raise .outOfRange)
  else .next (s.respond noFlags ((s.packByte k).setWidth 24))

end Sys2Proof.Machine
end

