-- ==== Sys2Proof/Machine/Truncator.lean ====
section
/-!
DEFINITION. The color_8to5_truncator's command CVT (41_color_truncator.md).
-/

namespace Sys2Proof.Machine

/-- CVT: `zext_24(snes(rgb))` in DATA, no state read or written (R92). -/
def execCvt (rgb : Rgb) (s : State) : Host.Outcome State Fault Refusal :=
  .next (s.respond noFlags ((snes rgb).setWidth 24))

end Sys2Proof.Machine
end

