-- ==== Sys2Proof/Machine/Dispatch.lean ====
section
/-!
DEFINITION. One arm per command: "perform the rule of OPC" (R64, R63).
-/

namespace Sys2Proof.Machine

def exec (i : Instr) (s : State) : Host.Outcome State Fault Refusal :=
  match i with
  -- 40_control.md
  | .nop => Sys2Proof.Machine.execNop s
  | .clr => Sys2Proof.Machine.execClr s
  | .setbpp b => Sys2Proof.Machine.execSetbpp b s
  | .stat => Sys2Proof.Machine.execStat s
  -- 41_color_truncator.md to 43_palette_lookup.md
  | .ins rgb => Sys2Proof.Machine.execIns rgb s
  | .lkp rgb => Sys2Proof.Machine.execLkp rgb s
  | .cvt rgb => Sys2Proof.Machine.execCvt rgb s
  | .rdp idx => Sys2Proof.Machine.execRdp idx s
  | .rdpb j => Sys2Proof.Machine.execRdpb j s
  -- 44_tile_packer.md, and LDT of 43_palette_lookup.md
  | .tsel slot => Sys2Proof.Machine.execTsel slot s
  | .ldt rgb => Sys2Proof.Machine.execLdt rgb s
  | .ldi v => Sys2Proof.Machine.execLdi v s
  | .rdt k => Sys2Proof.Machine.execRdt k s

end Sys2Proof.Machine
end

