-- ==== Sys2Proof/Machine/Channel.lean ====
section
/-!
DEFINITION. The command channel: one event of the host at a time (R49, R60), a command word decoded and performed (R64),
and power-on reset (R170).
-/

namespace Sys2Proof.Machine

/-- The step of R64 on one command word: an illegal word raises its error, a command is performed. -/
def performWord (w : Word) (s : State) : Host.Outcome State Fault Refusal :=
  match decode w with
  | .ok i => exec i s
  | .error e => .next (s.raise e)

/-- What one event does to the block. -/
def performEvent (e : HostEvent) (s : State) : Host.Outcome State Fault Refusal :=
  match e with
  | .command w => performWord w s
  | .powerOnReset _ => .next s.powerOnReset
  | .secondHostCommand _ => .refused .secondHost

/-- Taking the next event off the channel and performing it. While the host sends nothing, nothing changes (R182; log
entry 5). -/
def serve (s : State) : Host.Outcome State Fault Refusal :=
  match s.input with
  | [] => .next s
  | e :: rest => performEvent e (s.withInput rest)

/-- The channel with a command word in front, so that it is the next one taken. -/
def State.pushCommand (s : State) (w : Word) : State := s.withInput (.command w :: s.input)

end Sys2Proof.Machine
end

