-- ==== Sys2Proof/Machine/Step.lean ====
section
/-!
DEFINITION. One step of the block: one event of the host, performed whole and atomically (R47, R64).
-/

namespace Sys2Proof.Machine

/-- One step: the next event, or nothing while there is none (R49, R64, R182). -/
def step (s : State) : Host.Outcome State Fault Refusal := serve s

/-- `s` with the command word whose bits are `w` in front of the channel, where `step` takes its next command; the bits
above `nbits` are 0 (R60; log entries 3 and 12). -/
def State.withFetchWord (s : State) (nbits w : Nat) : State := s.pushCommand (BitVec.ofNat 32 (w % 2 ^ nbits))

end Sys2Proof.Machine
end

