-- ==== Sys2Proof/WellFormed.lean ====
section
/-!
DEFINITION. Well-formed commands. The operand widths stand in the types of Instr, so the one check left is SETBPP's:
"Only b = 2 and b = 4 are legal" (R82), the check the assembler of R70 makes too. The decoder reads the other six values
of b as well, and the meaning answers them with CmdError(3): neither `decode` nor `exec` asks for this predicate.
-/

namespace Sys2Proof

/-- The operand is one the spec calls legal whatever the state is (R61, R82). -/
def Instr.wellFormed : Instr → Bool
  | .setbpp b => b == 2#3 || b == 4#3
  | .nop => true
  | .clr => true
  | .stat => true
  | .ins _ => true
  | .lkp _ => true
  | .cvt _ => true
  | .rdp _ => true
  | .rdpb _ => true
  | .tsel _ => true
  | .ldt _ => true
  | .ldi _ => true
  | .rdt _ => true

end Sys2Proof
end

