-- ==== Sys2Proof/Machine/Assembler.lean ====
section
/-!
DEFINITION. The assembler of R70 (30_encoding.md): one command per line, `MNEMONIC [operand]`, `;` comments, decimal or
`0x` numbers, and `.word`. Its refusals are its own, "not block errors" (R70). It has no pseudo-instructions (R71). White
space, letter case and empty lines are as log entry 11 says.
-/

namespace Sys2Proof.Machine

/-- A line of assembly after its text is read: a command with its operand, or a raw word. -/
inductive SourceLine where
  /-- `MNEMONIC [operand]`. -/
  | command (m : Mnemonic) (operand : Option Nat)
  /-- `.word <32-bit number>`. -/
  | rawWord (n : Nat)
  deriving DecidableEq, Repr

/-- Why the assembler refuses a line. -/
inductive AsmError where
  /-- The first word of the line is neither a mnemonic nor `.word`. -/
  | unknownMnemonic
  /-- The operand is no number. -/
  | notANumber
  /-- An operand is missing, or there is one too many. -/
  | operandCount
  /-- The operand does not fit its field, or a SETBPP operand is neither 2 nor 4. -/
  | doesNotFit
  deriving DecidableEq, Repr

/-- The assembler's check of a command's operand: form N has none, every other form has one number "that fits the field
width", and SETBPP has 2 or 4 (R70). -/
def operandProblem (m : Mnemonic) (operand : Option Nat) : Option AsmError :=
  match operand with
  | none => if m.form = .n then none else some .operandCount
  | some n =>
    if m.form = .n then some .operandCount
    else if 2 ^ m.form.width ≤ n then some .doesNotFit
    else if m.form = .b ∧ n ≠ 2 ∧ n ≠ 4 then some .doesNotFit
    else none

/-- The word of a line, or the assembler's refusal (R70). -/
def assemble (l : SourceLine) : Except AsmError Word :=
  match l with
  | .command m operand =>
    match operandProblem m operand with
    | some e => .error e
    | none => .ok (m.opcode ++ BitVec.ofNat 24 (operand.getD 0))
  | .rawWord n => if n < 2 ^ 32 then .ok (BitVec.ofNat 32 n) else .error .doesNotFit

/-- The spelling of each mnemonic, in lower case (R63, R70). -/
def spelling : Mnemonic → List Char
  | .nop => ['n', 'o', 'p']
  | .clr => ['c', 'l', 'r']
  | .setbpp => ['s', 'e', 't', 'b', 'p', 'p']
  | .stat => ['s', 't', 'a', 't']
  | .ins => ['i', 'n', 's']
  | .lkp => ['l', 'k', 'p']
  | .cvt => ['c', 'v', 't']
  | .rdp => ['r', 'd', 'p']
  | .rdpb => ['r', 'd', 'p', 'b']
  | .tsel => ['t', 's', 'e', 'l']
  | .ldt => ['l', 'd', 't']
  | .ldi => ['l', 'd', 'i']
  | .rdt => ['r', 'd', 't']

/-- The value of a digit in a number of base `base`, in lower case. -/
def digitValue (base : Nat) (c : Char) : Option Nat :=
  let v := if '0' ≤ c ∧ c ≤ '9' then c.toNat - '0'.toNat
    else if 'a' ≤ c ∧ c ≤ 'f' then c.toNat - 'a'.toNat + 10
    else base
  if v < base then some v else none

/-- The digits of a number, added to `acc`. -/
def readDigits (base : Nat) : List Char → Nat → Option Nat
  | [], acc => some acc
  | c :: cs, acc =>
    match digitValue base c with
    | some v => readDigits base cs (acc * base + v)
    | none => none

/-- "Numbers are decimal, or hexadecimal with `0x`" (R70). -/
def readNumber : List Char → Option Nat
  | [] => none
  | ['0', 'x'] => none
  | '0' :: 'x' :: c :: cs => readDigits 16 (c :: cs) 0
  | c :: cs => readDigits 10 (c :: cs) 0

/-- White space between the words of a line. -/
def isBlank (c : Char) : Bool := c == ' ' || c == '\t' || c == '\r'

/-- The words of a line. -/
def words (cs : List Char) : List (List Char) :=
  (cs.foldr (fun c acc =>
      if isBlank c then [] :: acc
      else match acc with
        | w :: ws => (c :: w) :: ws
        | [] => [[c]]) [[]]).filter fun w => !w.isEmpty

/-- The mnemonic a word of a line spells. -/
def readMnemonic (w : List Char) : Option Mnemonic := Mnemonic.all.find? fun m => spelling m == w

/-- Reading a line's words; none for a line that holds no command. -/
def parseWords : List (List Char) → Except AsmError (Option SourceLine)
  | [] => .ok none
  | head :: rest =>
    if head = ['.', 'w', 'o', 'r', 'd'] then
      match rest with
      | [number] =>
        match readNumber number with
        | some n => .ok (some (.rawWord n))
        | none => .error .notANumber
      | _ => .error .operandCount
    else
      match readMnemonic head with
      | none => .error .unknownMnemonic
      | some m =>
        match rest with
        | [] => .ok (some (.command m none))
        | [number] =>
          match readNumber number with
          | some n => .ok (some (.command m (some n)))
          | none => .error .notANumber
        | _ => .error .operandCount

/-- Assembling a line of text: a `;` "starts a comment that runs to the end of the line" (R70). -/
def assembleLine (line : List Char) : Except AsmError (Option Word) :=
  match parseWords (words ((line.takeWhile fun c => c != ';').map Char.toLower)) with
  | .error e => .error e
  | .ok none => .ok none
  | .ok (some l) =>
    match assemble l with
    | .error e => .error e
    | .ok w => .ok (some w)

end Sys2Proof.Machine
end

