-- ==== Sys2Proof/Machine/Reference.lean ====
section
/-!
DEFINITION. The source's own functions, as the rules of spec/ quote them, over plain lists: `PaletteBuilder.extract`
(42_palette_dedup.md), the reverse lookup (43_palette_lookup.md), palette serialization (R42) and `encodeTile`
(44_tile_packer.md). They are what the block's commands are compared with, and no command is defined by them.
-/

namespace Sys2Proof.Machine

/-- The distinct triples of a sequence, in order of first occurrence (R103). -/
def distinctTriples : List Rgb → List Rgb
  | [] => []
  | t :: ts => t :: (distinctTriples ts).filter (fun u => u != t)

/-- The palette's triples: the first 256 distinct ones, in first-seen order (R103). -/
def sourcePalette (ts : List Rgb) : List Rgb := (distinctTriples ts).take 256

/-- The source's lookup: the index of a triple in the palette, and 0 for a triple that is not in it (R120, R123). -/
def sourceLookup (pal : List Rgb) (t : Rgb) : Byte := BitVec.ofNat 8 ((pal.findIdx? (fun u => u == t)).getD 0)

/-- A color's two serialized bytes, low byte first (R42). -/
def littleEndian (c : Color) : List Byte := [BitVec.ofNat 8 c.toNat, BitVec.ofNat 8 (c.toNat / 256)]

/-- The serialized palette: `2 × |Palette|` bytes, in palette order (R42, R107). -/
def serializePalette (pal : List Rgb) : List Byte := pal.flatMap fun t => littleEndian (snes t)

/-- Bit p of `indices[n]`, as the number 0 or 1. -/
def indexBit (indices : List Byte) (n p : Nat) : Nat := ((indices.getD n 0#8).getLsbD p).toNat

/-- "sum over x in 0..7 of (bit p of indices[y*8+x]) << (7-x)" (R131). -/
def sourcePlaneByte (indices : List Byte) (y p : Nat) : Byte :=
  BitVec.ofNat 8 (((List.range 8).map fun x => indexBit indices (y * 8 + x) p * 2 ^ (7 - x)).sum)

/-- Planes p and p + 1 "interleaved per row", 16 bytes (R132). -/
def sourcePlanePair (indices : List Byte) (p : Nat) : List Byte :=
  (List.range 8).flatMap fun y => [sourcePlaneByte indices y p, sourcePlaneByte indices y (p + 1)]

/-- `encodeTile(indices, bpp)`: planes 0 and 1, then planes 2 and 3 at 4 bpp (R132, R133, R139). -/
def encodeTile (indices : List Byte) (b : Nat) : List Byte :=
  sourcePlanePair indices 0 ++ if b = 2 then [] else sourcePlanePair indices 2

end Sys2Proof.Machine
end

