-- ==== Sys2Proof/Machine/HostProcedure.lean ====
section
/-!
DEFINITION. The host's side: the reference host procedure of R173 (70_reset_and_hazards.md) as the list of commands it
issues, its dimension check (R174), and the byte streams it collects. The host is no part of the block (R35).
-/

namespace Sys2Proof.Machine

/-- A source image: its size and the R, G, B of its pixels in raster order, alpha dropped (R94, R173). -/
structure Image where
  width : Nat
  height : Nat
  pixels : List Rgb
  deriving DecidableEq, Repr

/-- `rgb(px, py)`; black outside the pixels listed, which the procedure never asks for when there are W × H of them
(log entry 14). -/
def Image.rgb (img : Image) (px py : Nat) : Rgb := img.pixels.getD (py * img.width + px) 0#24

/-- The extract phase: one INS for each pixel, in raster order (R173). -/
def extractPhase (img : Image) : List Instr :=
  (List.range img.height).flatMap fun py => (List.range img.width).map fun px => Instr.ins (img.rgb px py)

/-- The triples of the tile at (tx, ty), `for y in 0..7: for x in 0..7` (R173). -/
def tileTriples (img : Image) (tx ty : Nat) : List Rgb :=
  (List.range 8).flatMap fun y => (List.range 8).map fun x => img.rgb (tx * 8 + x) (ty * 8 + y)

/-- The RDT commands of one tile: k = 0..tile_bytes(b)-1 in order (R173). -/
def readTile (b : Nat) : List Instr := (List.range (tileBytes b)).map fun k => Instr.rdt (BitVec.ofNat 5 k)

/-- The grid positions (tx, ty) of the tiles, `for ty: for tx` (R173). -/
def tileGrid (img : Image) : List (Nat × Nat) :=
  (List.range (img.height / 8)).flatMap fun ty => (List.range (img.width / 8)).map fun tx => (tx, ty)

/-- The encode phase: each tile loaded by 64 LDT and then read (R173). -/
def encodePhase (img : Image) (b : Nat) : List Instr :=
  (tileGrid img).flatMap fun g => (tileTriples img g.1 g.2).map Instr.ldt ++ readTile b

/-- The RDPB commands: j = 0..2*COUNT-1 in order (R173). -/
def readPalette (count : Nat) : List Instr := (List.range (2 * count)).map fun j => Instr.rdpb (BitVec.ofNat 9 j)

/-- The command sequence of `host_encode(W, H, b)` for a palette of `count` entries, the COUNT field of the STAT response;
none when the dimensions are not multiples of 8: "fail before any command" (R173, R174). -/
def hostEncode (img : Image) (b count : Nat) : Option (List Instr) :=
  if img.width % 8 = 0 ∧ img.height % 8 = 0 then
    some ([Instr.setbpp (BitVec.ofNat 3 b), Instr.clr] ++ extractPhase img ++ [Instr.stat] ++ encodePhase img b
      ++ readPalette count)
  else none

/-- The bytes the host appends to the tile stream: DATA[7:0] of every RDT response, in order (R173). -/
def tileStream (cmds : List Instr) (resps : List Word) : List Byte :=
  ((cmds.zip resps).filter fun p => decide (p.1.mnemonic = Mnemonic.rdt)).map fun p => p.2.extractLsb' 0 8

/-- The bytes the host appends to the palette stream: DATA[7:0] of every RDPB response, in order (R173). -/
def paletteStream (cmds : List Instr) (resps : List Word) : List Byte :=
  ((cmds.zip resps).filter fun p => decide (p.1.mnemonic = Mnemonic.rdpb)).map fun p => p.2.extractLsb' 0 8

/-- "tile at grid position (tx,ty)" of the source's output: the lookups of its 64 triples, packed (R173, R139). -/
def sourceTile (img : Image) (b tx ty : Nat) : List Byte :=
  encodeTile ((tileTriples img tx ty).map (sourceLookup (sourcePalette img.pixels))) b

/-- The source's tile output: the "concatenated byte stream for tiles" in traversal order (R173). -/
def sourceTiles (img : Image) (b : Nat) : List Byte :=
  (tileGrid img).flatMap fun g => sourceTile img b g.1 g.2

end Sys2Proof.Machine
end

