-- ==== Sys2Proof/Safety.lean ====
section
/-!
DEFINITION. What a good state and a good run are: the invariants of R31 (10_state.md), the states a run can reach, and the
agreement of two states that R53 (20_memory.md) asks for.
-/

namespace Sys2Proof.Machine

/-- The invariants INV1 to INV4 of R31. INV5 and INV6 hold by the types of TPTR, TBUF and BPPSEL. -/
structure State.Inv (s : State) : Prop where
  /-- INV1: `COUNT ≤ 256`. -/
  count_le : s.count.toNat ≤ 256
  /-- INV2: for all i < j < COUNT, `KEY[i] ≠ KEY[j]`. -/
  keys_distinct : ∀ i j : Fin 256, i < j → j.val < s.count.toNat → s.key[i] ≠ s.key[j]
  /-- INV3: for all i < COUNT, `COL[i] = snes(KEY[i])`. -/
  colors_match : ∀ i : Fin 256, i.val < s.count.toNat → s.col[i] = snes s.key[i]
  /-- INV4: `OVF = 1` implies `COUNT = 256`. -/
  ovf_full : s.ovf = true → s.count.toNat = 256

/-- The state R34 and R170 describe: every element at its reset value, KEY and COL anything at all. -/
structure State.PoweredOn (s : State) : Prop where
  count_eq : s.count = 0#9
  ovf_eq : s.ovf = false
  bppsel_eq : s.bppsel = true
  tptr_eq : s.tptr = 0#6
  tbuf_eq : s.tbuf = Vector.replicate 64 0#8

/-- A run of `n` steps, which ends early where a step is refused (R182). It is the host's `Host.Core.run` of `core`. -/
def run : Nat → State → Host.Outcome State Fault Refusal
  | 0, s => .next s
  | n + 1, s =>
    match step s with
    | .next t => run n t
    | .fault r => .fault r
    | .refused r => .refused r

/-- The states a run reaches from power-on reset, whatever KEY and COL hold then and whatever the host sends (R31). -/
inductive Reachable : State → Prop where
  /-- Right after reset. -/
  | poweredOn {s : State} (h : s.PoweredOn) : Reachable s
  /-- One step on. -/
  | step {s t : State} (h : Reachable s) (hs : step s = .next t) : Reachable t

/-- Two states of the block that differ at most in "the unspecified KEY and COL elements at or above COUNT" (R53). It says
nothing of the channel. -/
structure Agree (s t : State) : Prop where
  count_eq : s.count = t.count
  ovf_eq : s.ovf = t.ovf
  bppsel_eq : s.bppsel = t.bppsel
  tptr_eq : s.tptr = t.tptr
  tbuf_eq : s.tbuf = t.tbuf
  /-- The valid entries hold the same triples. -/
  key_eq : ∀ i : Fin 256, i.val < s.count.toNat → s.key[i] = t.key[i]
  /-- The valid entries hold the same colors. -/
  col_eq : ∀ i : Fin 256, i.val < s.count.toNat → s.col[i] = t.col[i]

/-- A triple is in the palette: it is KEY[i] of a valid i (R24, R100). -/
def State.Present (s : State) (rgb : Rgb) : Prop := ∃ i : Fin 256, i.val < s.count.toNat ∧ s.key[i] = rgb

/-- The next event is one of the two that empty the palette: a CLR, or a reset (R23, R25). -/
def State.ClearsNext (s : State) : Prop :=
  (∃ rest, s.input = .command (encode .clr) :: rest) ∨ ∃ lost rest, s.input = .powerOnReset lost :: rest

/-- The next event is an INS of this triple (R101). -/
def State.InsertsNext (s : State) (rgb : Rgb) : Prop := ∃ rest, s.input = .command (encode (.ins rgb)) :: rest

/-- The events of a host that sends these commands one after the other (R49). -/
def commandEvents (cmds : List Instr) : List HostEvent := cmds.map fun i => HostEvent.command (encode i)

end Sys2Proof.Machine
end

