-- ==== Sys2Proof/Certificates/Slice0/Obligations.lean ====
section
/-!
DEFINITION. The statements for the provers. Each docstring names the rule of spec/ the statement formalises. A response is
shown as the word appended to `output` (log entry 4); a next state is written as a record update of the state before, so
every field that is not named is unchanged: that is the statement's frame.
-/

open Sys2Proof Sys2Proof.Machine

/-! ## The command word -/

/-- Words written out from the encodings of R63 and R70, one family after the other (40_ to 44_), read as the commands
they stand for. -/
def Obligations.WrittenWordsDecode : Prop :=
  decode 0x00000000#32 = .ok .nop ∧ decode 0x01000000#32 = .ok .clr ∧
  decode 0x02000004#32 = .ok (.setbpp 4#3) ∧ decode 0x03000000#32 = .ok .stat ∧
  decode 0x10FF0000#32 = .ok (.ins 0xFF0000#24) ∧ decode 0x110000FF#32 = .ok (.lkp 0x0000FF#24) ∧
  decode 0x12123456#32 = .ok (.cvt 0x123456#24) ∧ decode 0x130000FF#32 = .ok (.rdp 0xFF#8) ∧
  decode 0x140001FE#32 = .ok (.rdpb 510#9) ∧ decode 0x2000003F#32 = .ok (.tsel 63#6) ∧
  decode 0x2100FF00#32 = .ok (.ldt 0x00FF00#24) ∧ decode 0x220000AA#32 = .ok (.ldi 0xAA#8) ∧
  decode 0x2300001F#32 = .ok (.rdt 31#5)

/-- Decoding an encoded command gives it back, for every command and every operand the encoding admits (R60 to R63). -/
def Obligations.DecodeOfEncodeIsTheCommand : Prop :=
  ∀ i : Instr, decode (encode i) = .ok i

/-- Each word that decodes is the encoding of the command it decodes to, so no two words decode to one command and no bit
of a word is ignored (R60 to R63, R66). -/
def Obligations.EncodeOfDecodeIsTheWord : Prop :=
  ∀ (w : Word) (i : Instr), decode w = .ok i → encode i = w

/-- A word decodes to a command of mnemonic m exactly when its bits under the mask of m's row of opcode_table.json are the
row's match (R63). -/
def Obligations.DecodeFollowsTheOpcodeTable : Prop :=
  ∀ (w : Word) (m : Mnemonic), (∃ i, decode w = .ok i ∧ i.mnemonic = m) ↔ m.matchesRow w = true

/-- R65: the opcodes 0x04..0x0F, 0x15..0x1F and 0x24..0xFF, 243 in all, are illegal: CmdError(1), no state written; and no
other opcode is. -/
def Obligations.UnassignedOpcodesAreRefused : Prop :=
  (∀ w : Word, decode w = .error .badOpcode ↔
    (4 ≤ w.toNat / 2 ^ 24 ∧ w.toNat / 2 ^ 24 ≤ 0x0F) ∨ (0x15 ≤ w.toNat / 2 ^ 24 ∧ w.toNat / 2 ^ 24 ≤ 0x1F) ∨
      0x24 ≤ w.toNat / 2 ^ 24) ∧
  ((List.range 256).filter fun n => mnemonicOf (BitVec.ofNat 8 n) = none).length = 243 ∧
  ∀ (s : State) (w : Word) (rest : List HostEvent), s.input = .command w :: rest → decode w = .error .badOpcode →
    step s = .next { s with input := rest, output := s.output ++ [0x81000000#32] }

/-- R66: a word with an assigned opcode and a bit set above its operand field raises CmdError(2) and writes no state. -/
def Obligations.ReservedOperandBitsAreRefused : Prop :=
  ∀ (s : State) (m : Mnemonic) (opd : Data) (rest : List HostEvent), s.input = .command (m.opcode ++ opd) :: rest →
    2 ^ m.form.width ≤ opd.toNat →
    step s = .next { s with input := rest, output := s.output ++ [0x82000000#32] }

/-- R64 and R152: the checks of one command word in their order. An unassigned opcode is reported first, a reserved bit
second, and only a word that passes both is performed. -/
def Obligations.StepChecksOpcodeThenReservedBits : Prop :=
  ∀ (s : State) (w : Word) (rest : List HostEvent), s.input = .command w :: rest →
    step s =
      match mnemonicOf (w.extractLsb' 24 8) with
      | none => .next { s with input := rest, output := s.output ++ [0x81000000#32] }
      | some m =>
        if 2 ^ m.form.width ≤ w.toNat % 2 ^ 24 then
          .next { s with input := rest, output := s.output ++ [0x82000000#32] }
        else exec (m.instr (w.extractLsb' 0 24)) { s with input := rest }

/-- R72: the all-zero word is NOP and changes nothing. -/
def Obligations.ZeroWordChangesNothing : Prop :=
  decode 0#32 = .ok .nop ∧
  ∀ (s : State) (rest : List HostEvent), s.input = .command 0#32 :: rest →
    step s = .next { s with input := rest, output := s.output ++ [0#32] }

/-! ## The step -/

/-- A step runs the decoded command: when the next event is a command word that decodes to i, the step is exec of i at the
state with that event taken off the channel (R49, R64; the channel is log entry 3). -/
def Obligations.StepRunsTheDecodedCommand : Prop :=
  ∀ (s : State) (w : Word) (i : Instr) (rest : List HostEvent), s.input = .command w :: rest → decode w = .ok i →
    step s = exec i { s with input := rest }

/-- Every one of the 2^32 command words is performed to its end: the step answers a next state with exactly one more
response (R60, R64, R182). -/
def Obligations.EveryWordGetsOneResponse : Prop :=
  ∀ (s : State) (w : Word) (rest : List HostEvent), s.input = .command w :: rest →
    ∃ t r, step s = .next t ∧ t.input = rest ∧ t.output = s.output ++ [r]

/-- While the host sends nothing a step changes nothing. The model's choice (log entry 5), with R182's "never stops by
itself". -/
def Obligations.IdleStepChangesNothing : Prop :=
  ∀ s : State, s.input = [] → step s = .next s

/-- R51: a second host's command is refused, not interleaved. -/
def Obligations.SecondHostIsRefused : Prop :=
  ∀ (s : State) (w : Word) (rest : List HostEvent), s.input = .secondHostCommand w :: rest →
    step s = .refused .secondHost

/-- R68 and R69: a response without an error has ECODE 0; one with an error has ECODE 1, 2 or 3 and every other bit 0. -/
def Obligations.ResponseFieldsAreConsistent : Prop :=
  ∀ (s t : State) (w r : Word) (rest : List HostEvent), s.input = .command w :: rest → step s = .next t →
    t.output = s.output ++ [r] →
    (respErr r = false → respEcode r = 0#4) ∧
    (respErr r = true → respMiss r = false ∧ respNew r = false ∧ respDrop r = false ∧ respData r = 0#24 ∧
      (respEcode r = 1#4 ∨ respEcode r = 2#4 ∨ respEcode r = 3#4))

/-- R150: a command whose response has ERR = 1 writes no state, its response is `0x80000000 | (code << 24)`, and the block
goes on. -/
def Obligations.CommandErrorWritesNothing : Prop :=
  ∀ (s t : State) (w r : Word) (rest : List HostEvent), s.input = .command w :: rest → step s = .next t →
    t.output = s.output ++ [r] → respErr r = true →
    t = { s with input := rest, output := s.output ++ [r] } ∧
    ∃ e : CmdError, r = 0x80000000#32 ||| ((errorCode e).setWidth 32 <<< 24)

/-- R151: which decoded commands raise an error, and when: SETBPP of b not 2 or 4, RDP of i ≥ COUNT, RDPB of j ≥ 2 × COUNT,
RDT of k ≥ tile_bytes(bpp()). Each of these raises code 3 and no other command raises any. -/
def Obligations.OutOfRangeIsRaisedExactlyWhere : Prop :=
  ∀ (i : Instr) (s : State), ∃ t r, exec i s = .next t ∧ t.output = s.output ++ [r] ∧
    (respErr r = true ↔ r = 0x83000000#32) ∧
    (respErr r = true ↔
      match i with
      | .setbpp b => b.toNat ≠ 2 ∧ b.toNat ≠ 4
      | .rdp i => s.count.toNat ≤ i.toNat
      | .rdpb j => 2 * s.count.toNat ≤ j.toNat
      | .rdt k => (if s.bppsel then 32 else 16) ≤ k.toNat
      | .nop | .clr | .stat | .ins _ | .lkp _ | .cvt _ | .tsel _ | .ldt _ | .ldi _ => False)

/-! ## Control commands -/

/-- R80: NOP's word, its error, and its effect: response 0 and nothing else. -/
def Obligations.NopOnlyAnswersZero : Prop :=
  (∀ opd : Data, decode (0x00#8 ++ opd) = if opd = 0#24 then .ok .nop else .error .reservedBits) ∧
  ∀ s : State, exec .nop s = .next { s with output := s.output ++ [0#32] }

/-- R81: CLR's word, its error, and its effect: COUNT, OVF, TPTR and every TBUF slot 0; BPPSEL, KEY and COL kept. -/
def Obligations.ClrEmptiesPaletteAndTile : Prop :=
  (∀ opd : Data, decode (0x01#8 ++ opd) = if opd = 0#24 then .ok .clr else .error .reservedBits) ∧
  ∀ s : State, ∃ t, exec .clr s = .next t ∧
    t = { s with count := 0#9, ovf := false, tptr := 0#6, tbuf := t.tbuf, output := s.output ++ [0#32] } ∧
    ∀ n : Fin 64, t.tbuf[n] = 0#8

/-- R82: SETBPP's words, its errors, and its effect: 2 selects 2 bpp, 4 selects 4 bpp, the other six values raise
CmdError(3). -/
def Obligations.SetbppSelectsTwoOrFour : Prop :=
  (∀ opd : Data, decode (0x02#8 ++ opd) =
    if opd.toNat < 8 then .ok (.setbpp (BitVec.ofNat 3 opd.toNat)) else .error .reservedBits) ∧
  (∀ s : State, exec (.setbpp 2#3) s = .next { s with bppsel := false, output := s.output ++ [0#32] }) ∧
  (∀ s : State, exec (.setbpp 4#3) s = .next { s with bppsel := true, output := s.output ++ [0#32] }) ∧
  ∀ (b : BitVec 3) (s : State), b.toNat ≠ 2 → b.toNat ≠ 4 →
    exec (.setbpp b) s = .next { s with output := s.output ++ [0x83000000#32] }

/-- R30 and R83: STAT's word, its error, and its effect: COUNT in DATA[8:0], OVF in bit 9, CAPW in bit 10, BPPSEL in bit 11,
TPTR in DATA[17:12], the rest 0, with CAPW = 1 exactly when COUNT exceeds 4 at 2 bpp or 16 at 4 bpp (R27); and its
response in a state right after reset. -/
def Obligations.StatAnswersTheStatusFields : Prop :=
  (∀ opd : Data, decode (0x03#8 ++ opd) = if opd = 0#24 then .ok .stat else .error .reservedBits) ∧
  (∀ s : State, exec .stat s = .next { s with
    output := s.output ++ [BitVec.ofNat 32 (s.count.toNat + 512 * s.ovf.toNat
      + 1024 * (if (if s.bppsel then 16 else 4) < s.count.toNat then 1 else 0)
      + 2048 * s.bppsel.toNat + 4096 * s.tptr.toNat)] }) ∧
  ∀ s : State, s.PoweredOn → exec .stat s = .next { s with output := s.output ++ [0x00000800#32] }

/-- R172: SETBPP and then CLR leaves the same state as CLR and then SETBPP. -/
def Obligations.SetbppAndClrCommute : Prop :=
  ∀ (s : State) (b : BitVec 3), ∃ t t' u, exec (.setbpp b) s = .next t ∧ exec .clr s = .next t' ∧
    ((b.toNat = 2 ∨ b.toNat = 4) → exec .clr t = .next u ∧ exec (.setbpp b) t' = .next u)

/-! ## The color -/

/-- R90 to R92: CVT's word and its effect: the color `(R >> 3) | ((G >> 3) << 5) | ((B >> 3) << 10)` in DATA, no state
written. -/
def Obligations.CvtAnswersTheTruncatedColor : Prop :=
  (∀ opd : Data, decode (0x12#8 ++ opd) = .ok (.cvt opd)) ∧
  ∀ (r g b : BitVec 8) (s : State), exec (.cvt (r ++ g ++ b)) s = .next { s with
    output := s.output ++ [(r.setWidth 32 >>> 3) ||| ((g.setWidth 32 >>> 3) <<< 5) ||| ((b.setWidth 32 >>> 3) <<< 10)] }

/-- R93: each 15-bit color is the image of exactly 512 triples: one for each choice of the three low bits of each
channel. -/
def Obligations.EachColorHas512Triples : Prop :=
  ∀ (c : Color) (lowR lowG lowB : Fin 8), ∃! rgb : Rgb, snes rgb = c ∧
    rgb.toNat / 65536 % 8 = lowR ∧ rgb.toNat / 256 % 8 = lowG ∧ rgb.toNat % 8 = lowB

/-! ## The palette -/

/-- R101: INS's word and its effect. A triple already present answers its index and writes nothing, also when COUNT = 256 or
OVF = 1. A novel one is appended while COUNT < 256: KEY[COUNT], COL[COUNT] and COUNT are written and NEW answers the new
index. When COUNT = 256 a novel one sets OVF, writes nothing else and answers MISS and DROP. INV2 (R31) is the first
clause's premise. -/
def Obligations.InsHitsAppendsOrDrops : Prop :=
  (∀ opd : Data, decode (0x10#8 ++ opd) = .ok (.ins opd)) ∧
  (∀ (s : State) (i : Fin 256), s.Inv → i.val < s.count.toNat →
    exec (.ins s.key[i]) s = .next { s with output := s.output ++ [BitVec.ofNat 32 i.val] }) ∧
  (∀ (s : State) (rgb : Rgb) (hc : s.count.toNat < 256), (∀ i : Fin 256, i.val < s.count.toNat → s.key[i] ≠ rgb) →
    exec (.ins rgb) s = .next { s with
      key := s.key.set s.count.toNat rgb
      col := s.col.set s.count.toNat (snes rgb)
      count := s.count + 1#9
      output := s.output ++ [BitVec.ofNat 32 (0x20000000 + s.count.toNat)] }) ∧
  ∀ (s : State) (rgb : Rgb), s.count.toNat = 256 → (∀ i : Fin 256, s.key[i] ≠ rgb) →
    exec (.ins rgb) s = .next { s with ovf := true, output := s.output ++ [0x50000000#32] }

/-- R102: an INS of a novel triple when COUNT = 256 sets OVF and writes nothing else, without an error; and after any
further commands but CLR, whatever they are, LKP and LDT of that triple still miss and yield index 0. -/
def Obligations.DroppedTriplesStayAbsent : Prop :=
  ∀ (s : State) (rgb : Rgb) (ws : List Word), s.count.toNat = 256 → (∀ i : Fin 256, s.key[i] ≠ rgb) →
    encode .clr ∉ ws → s.input = .command (encode (.ins rgb)) :: ws.map .command →
    ∃ t u, step s = .next t ∧
      t = { s with input := ws.map .command, ovf := true, output := s.output ++ [0x50000000#32] } ∧
      run ws.length t = .next u ∧
      exec (.lkp rgb) u = .next { u with output := u.output ++ [0x40000000#32] } ∧
      exec (.ldt rgb) u = .next { u with
        tbuf := u.tbuf.set u.tptr.toNat 0#8 u.tptr.isLt
        tptr := BitVec.ofNat 6 ((u.tptr.toNat + 1) % 64)
        output := u.output ++ [0x40000000#32] }

/-- R105: RDP's words, its errors, and its effect: COL[i], zero-extended, for i < COUNT, and CmdError(3) otherwise. -/
def Obligations.RdpAnswersTheEntryColor : Prop :=
  (∀ opd : Data, decode (0x13#8 ++ opd) =
    if opd.toNat < 256 then .ok (.rdp (BitVec.ofNat 8 opd.toNat)) else .error .reservedBits) ∧
  ∀ (s : State) (i : Fin 256),
    (i.val < s.count.toNat →
      exec (.rdp (BitVec.ofNat 8 i.val)) s = .next { s with output := s.output ++ [s.col[i].setWidth 32] }) ∧
    (s.count.toNat ≤ i.val →
      exec (.rdp (BitVec.ofNat 8 i.val)) s = .next { s with output := s.output ++ [0x83000000#32] })

/-- R42 and R106: RDPB's words, its errors, and its effect: byte j is the low byte of COL[j/2] for an even j and the high byte
for an odd j, for j < 2 × COUNT, and CmdError(3) otherwise. -/
def Obligations.RdpbAnswersTheSerializedByte : Prop :=
  (∀ opd : Data, decode (0x14#8 ++ opd) =
    if opd.toNat < 512 then .ok (.rdpb (BitVec.ofNat 9 opd.toNat)) else .error .reservedBits) ∧
  ∀ (s : State) (i : Fin 256),
    (i.val < s.count.toNat →
      exec (.rdpb (BitVec.ofNat 9 (2 * i.val))) s =
        .next { s with output := s.output ++ [BitVec.ofNat 32 (s.col[i].toNat % 256)] } ∧
      exec (.rdpb (BitVec.ofNat 9 (2 * i.val + 1))) s =
        .next { s with output := s.output ++ [BitVec.ofNat 32 (s.col[i].toNat / 256)] }) ∧
    (s.count.toNat ≤ i.val →
      exec (.rdpb (BitVec.ofNat 9 (2 * i.val))) s = .next { s with output := s.output ++ [0x83000000#32] } ∧
      exec (.rdpb (BitVec.ofNat 9 (2 * i.val + 1))) s = .next { s with output := s.output ++ [0x83000000#32] })

/-- R108: two distinct triples of one color, presented to an empty palette, get an entry each and both entries hold that
color. -/
def Obligations.DuplicateColorsKeepTheirOwnEntries : Prop :=
  ∀ (s : State) (a b : Rgb), s.count = 0#9 → a ≠ b → snes a = snes b →
    ∃ t u, exec (.ins a) s = .next t ∧ exec (.ins b) t = .next u ∧ u.count = 2#9 ∧
      u.key[0] = a ∧ u.key[1] = b ∧ u.col[0] = snes a ∧ u.col[1] = snes a

/-- R103: after INS of any sequence of triples from an empty palette, entry i holds the i-th distinct triple in order of
first occurrence, COUNT = min(256, number of distinct triples), and OVF says whether there were more than 256. -/
def Obligations.PaletteIsFirstSeenOrder : Prop :=
  ∀ (s : State) (ts : List Rgb), s.count = 0#9 → s.ovf = false → s.input = commandEvents (ts.map .ins) →
    ∃ t, run ts.length s = .next t ∧
      t.count.toNat = min 256 (distinctTriples ts).length ∧
      t.key.toList.take t.count.toNat = (distinctTriples ts).take 256 ∧
      t.col.toList.take t.count.toNat = ((distinctTriples ts).take 256).map snes ∧
      t.ovf = decide (256 < (distinctTriples ts).length)

/-- R42 and R107: reading RDPB for j = 0, 1, ..., 2 × COUNT − 1 yields the serialized palette, `2 × |Palette|` bytes, and
writes nothing. -/
def Obligations.PaletteReadsGiveTheSerializedPalette : Prop :=
  ∀ s : State, s.Inv → s.input = commandEvents (readPalette s.count.toNat) →
    run (2 * s.count.toNat) s = .next { s with
      input := []
      output := s.output ++ (serializePalette (s.key.toList.take s.count.toNat)).map fun b => b.setWidth 32 } ∧
    (serializePalette (s.key.toList.take s.count.toNat)).length = 2 * s.count.toNat

/-! ## The lookup -/

/-- R120, R121 and R123: LKP's word and its effect: the index of a present triple, MISS and 0 for an absent one; no state
written. -/
def Obligations.LkpAnswersTheIndexOrMiss : Prop :=
  (∀ opd : Data, decode (0x11#8 ++ opd) = .ok (.lkp opd)) ∧
  (∀ (s : State) (i : Fin 256), s.Inv → i.val < s.count.toNat →
    exec (.lkp s.key[i]) s = .next { s with output := s.output ++ [BitVec.ofNat 32 i.val] }) ∧
  ∀ (s : State) (rgb : Rgb), (∀ i : Fin 256, i.val < s.count.toNat → s.key[i] ≠ rgb) →
    exec (.lkp rgb) s = .next { s with output := s.output ++ [0x40000000#32] }

/-- R122 and R123: LDT's word and its effect: the index of a present triple, or 0 with MISS for an absent one, goes into
TBUF[TPTR], and TPTR advances mod 64. -/
def Obligations.LdtLoadsTheIndexOrZero : Prop :=
  (∀ opd : Data, decode (0x21#8 ++ opd) = .ok (.ldt opd)) ∧
  (∀ (s : State) (i : Fin 256), s.Inv → i.val < s.count.toNat →
    exec (.ldt s.key[i]) s = .next { s with
      tbuf := s.tbuf.set s.tptr.toNat (BitVec.ofNat 8 i.val) s.tptr.isLt
      tptr := BitVec.ofNat 6 ((s.tptr.toNat + 1) % 64)
      output := s.output ++ [BitVec.ofNat 32 i.val] }) ∧
  ∀ (s : State) (rgb : Rgb), (∀ i : Fin 256, i.val < s.count.toNat → s.key[i] ≠ rgb) →
    exec (.ldt rgb) s = .next { s with
      tbuf := s.tbuf.set s.tptr.toNat 0#8 s.tptr.isLt
      tptr := BitVec.ofNat 6 ((s.tptr.toNat + 1) % 64)
      output := s.output ++ [0x40000000#32] }

/-- R124: entries are never moved or removed before CLR or reset: a triple found now has the same index after any step that
is neither. -/
def Obligations.FoundTriplesKeepTheirIndex : Prop :=
  ∀ (s t : State) (rgb : Rgb) (i : Nat), s.Inv → ¬ s.ClearsNext → step s = .next t → s.find rgb = some i →
    t.find rgb = some i

/-! ## The tile -/

/-- R135: TSEL's words, its error, and its effect: TPTR becomes the operand. -/
def Obligations.TselSetsTheSlotPointer : Prop :=
  (∀ opd : Data, decode (0x20#8 ++ opd) =
    if opd.toNat < 64 then .ok (.tsel (BitVec.ofNat 6 opd.toNat)) else .error .reservedBits) ∧
  ∀ (s : State) (slot : BitVec 6), exec (.tsel slot) s = .next { s with
    tptr := slot
    output := s.output ++ [BitVec.ofNat 32 slot.toNat] }

/-- R136: LDI's words, its error, and its effect: all 8 bits of v go into TBUF[TPTR], and TPTR advances mod 64. -/
def Obligations.LdiLoadsTheRawIndex : Prop :=
  (∀ opd : Data, decode (0x22#8 ++ opd) =
    if opd.toNat < 256 then .ok (.ldi (BitVec.ofNat 8 opd.toNat)) else .error .reservedBits) ∧
  ∀ (s : State) (v : BitVec 8), exec (.ldi v) s = .next { s with
    tbuf := s.tbuf.set s.tptr.toNat v s.tptr.isLt
    tptr := BitVec.ofNat 6 ((s.tptr.toNat + 1) % 64)
    output := s.output ++ [BitVec.ofNat 32 v.toNat] }

/-- R131, R132 and R137: RDT's words, its errors, and its effect. Below tile_bytes(bpp()) the response is a byte whose bit
7 − x is bit `2*(k >> 4) + (k & 1)` of the slot of pixel x of row `(k & 0xF) >> 1`; no state is written; at or above it
CmdError(3). -/
def Obligations.RdtAnswersThePackedByte : Prop :=
  (∀ opd : Data, decode (0x23#8 ++ opd) =
    if opd.toNat < 32 then .ok (.rdt (BitVec.ofNat 5 opd.toNat)) else .error .reservedBits) ∧
  ∀ (s : State) (k : Fin 32),
    (k.val < (if s.bppsel then 32 else 16) →
      ∃ r : Byte, exec (.rdt (BitVec.ofNat 5 k.val)) s = .next { s with output := s.output ++ [r.setWidth 32] } ∧
        ∀ x : Fin 8, r.getLsbD (7 - x.val) =
          (s.tbuf[k.val % 16 / 2 * 8 + x.val]'(by omega)).getLsbD (2 * (k.val / 16) + k.val % 2)) ∧
    ((if s.bppsel then 32 else 16) ≤ k.val →
      exec (.rdt (BitVec.ofNat 5 k.val)) s = .next { s with output := s.output ++ [0x83000000#32] })

/-- R134: the packer reads only the low bpp() bits of each slot: RDT answers the same when every slot is cut to them, as
index 5 at 2 bpp packs as 1. -/
def Obligations.PackingTruncatesToTheLowBits : Prop :=
  ∀ (s : State) (k : BitVec 5),
    ∃ r, exec (.rdt k) s = .next { s with output := s.output ++ [r] } ∧
      exec (.rdt k) { s with tbuf := s.tbuf.map fun v => BitVec.ofNat 8 (v.toNat % 2 ^ (if s.bppsel then 4 else 2)) } =
        .next { s with
          tbuf := s.tbuf.map fun v => BitVec.ofNat 8 (v.toNat % 2 ^ (if s.bppsel then 4 else 2))
          output := s.output ++ [r] }

/-- R138: slot q reaches only its own lane: changing it can change bit 7 − (q mod 8) of the bytes of row q / 8, and no other
bit of any packed byte. -/
def Obligations.LanesDoNotAffectEachOther : Prop :=
  ∀ (s : State) (q : Fin 64) (v : Byte) (k : BitVec 5),
    ∃ r r', exec (.rdt k) s = .next { s with output := s.output ++ [r] } ∧
      exec (.rdt k) { s with tbuf := s.tbuf.set q.val v } =
        .next { s with tbuf := s.tbuf.set q.val v, output := s.output ++ [r'] } ∧
      ∀ n, r.getLsbD n ≠ r'.getLsbD n → n = 7 - q.val % 8 ∧ k.toNat % 16 / 2 = q.val / 8

/-- R133 and R139: reading RDT for k = 0 .. tile_bytes(bpp()) − 1 yields the source's encodeTile of the slots, 16 bytes at
2 bpp and 32 at 4 bpp, and writes nothing. -/
def Obligations.TileReadsGiveEncodeTile : Prop :=
  ∀ s : State, s.input = commandEvents (readTile s.bpp) →
    run (tileBytes s.bpp) s = .next { s with
      input := []
      output := s.output ++ (encodeTile s.tbuf.toList s.bpp).map fun b => b.setWidth 32 } ∧
    (encodeTile s.tbuf.toList s.bpp).length = if s.bppsel then 32 else 16

/-- R29: 64 loads in a row from slot 0, each an LDT or an LDI, fill the tile in raster order and leave TPTR at 0: slot n gets
the n-th load's operand if it is an LDI, and the index of its triple, or 0 on a miss, if it is an LDT. INV2 (R31) is the
premise of the hit. -/
def Obligations.SixtyFourLoadsFillTheTile : Prop :=
  ∀ (s : State) (loads : Vector Instr 64), s.tptr = 0#6 →
    (∀ n : Fin 64, (∃ rgb, loads[n] = .ldt rgb) ∨ ∃ v, loads[n] = .ldi v) → s.input = commandEvents loads.toList →
    ∃ (t : Vector Byte 64) (rs : Vector Word 64),
      run 64 s = .next { s with input := [], tbuf := t, output := s.output ++ rs.toList } ∧
      ∀ n : Fin 64,
        (∀ v, loads[n] = .ldi v → t[n] = v ∧ rs[n] = v.setWidth 32) ∧
        (s.Inv → ∀ i : Fin 256, i.val < s.count.toNat → loads[n] = .ldt s.key[i] →
          t[n] = BitVec.ofNat 8 i.val ∧ rs[n] = BitVec.ofNat 32 i.val) ∧
        (∀ rgb, ¬ s.Present rgb → loads[n] = .ldt rgb → t[n] = 0#8 ∧ rs[n] = 0x40000000#32)

/-! ## Reset, invariants and the whole machine -/

/-- R34: the reset values the spec gives, CAPW among them. KEY and COL are unspecified and not named here. -/
def Obligations.ResetStateHasTheSpecValues : Prop :=
  State.reset.count = 0#9 ∧ State.reset.ovf = false ∧ State.reset.bppsel = true ∧ State.reset.tptr = 0#6 ∧
    (∀ n : Fin 64, State.reset.tbuf[n] = 0#8) ∧ State.reset.capw = false

/-- R170: a reset event puts every element to its reset value and produces no response, and a command in progress is
lost. That the events still to come and the responses already returned are kept (`t.input`, `t.output`) is the model's
choice, log entry 13; the channel itself is log entries 3 and 4. -/
def Obligations.ResetEventGivesTheResetValues : Prop :=
  ∀ (s : State) (lost : Option Word) (rest : List HostEvent), s.input = .powerOnReset lost :: rest →
    ∃ t, step s = .next t ∧ t.count = 0#9 ∧ t.ovf = false ∧ t.bppsel = true ∧ t.tptr = 0#6 ∧
      (∀ n : Fin 64, t.tbuf[n] = 0#8) ∧ t.output = s.output ∧ t.input = rest

/-- R171: CLR leaves exactly the reset state, except that BPPSEL keeps its value. -/
def Obligations.ClrIsTheSoftReset : Prop :=
  ∀ s : State, ∃ t, exec .clr s = .next t ∧ t.bppsel = s.bppsel ∧ { t with bppsel := true }.PoweredOn

/-- The invariants hold at reset (R31). -/
def Obligations.ResetStateIsGood : Prop := State.reset.Inv

/-- R31, one step: from every state with the invariants, whatever the event, a next state has them. -/
def Obligations.EveryStepKeepsTheInvariants : Prop :=
  ∀ s t : State, s.Inv → step s = .next t → t.Inv

/-- R31: every state reachable from reset, whatever KEY and COL held then and whatever the host sends, satisfies the
invariants. -/
def Obligations.ReachableStatesAreGood : Prop :=
  ∀ s : State, Reachable s → s.Inv

/-- R23: a step sets COUNT to 0 if it is CLR or reset, adds 1 if it is an INS that appends, and keeps it otherwise; it never
takes COUNT above 256. The premise is INV1 (R31). -/
def Obligations.CountFollowsClearsAndAppends : Prop :=
  ∀ s t : State, s.count.toNat ≤ 256 → step s = .next t →
    t.count.toNat ≤ 256 ∧
    (s.ClearsNext → t.count = 0#9) ∧
    (∀ rgb, s.InsertsNext rgb → ¬ s.Present rgb → s.count.toNat < 256 → t.count.toNat = s.count.toNat + 1) ∧
    (¬ s.ClearsNext → (∀ rgb, s.InsertsNext rgb → s.Present rgb ∨ s.count.toNat = 256) → t.count = s.count)

/-- R25: OVF is sticky: CLR and reset clear it, an INS that drops a novel triple because COUNT = 256 sets it, and no other
step changes it. The premise is INV1 (R31). -/
def Obligations.OvfIsSticky : Prop :=
  ∀ s t : State, s.count.toNat ≤ 256 → step s = .next t →
    (s.ClearsNext → t.ovf = false) ∧
    (∀ rgb, s.InsertsNext rgb → ¬ s.Present rgb → s.count.toNat = 256 → t.ovf = true) ∧
    (¬ s.ClearsNext → (∀ rgb, s.InsertsNext rgb → s.Present rgb ∨ s.count.toNat < 256) → t.ovf = s.ovf)

/-- R27: OVF = 1 implies CAPW = 1, in every good state. -/
def Obligations.OverflowImpliesCapacityWarning : Prop :=
  ∀ s : State, s.Inv → s.ovf = true → s.capw = true

/-- The writers of each element (R21, R22, R25, R26, R29, R40): each command completes, and an element that changes was
changed by one of the commands the spec lists for it. -/
def Obligations.OnlyTheListedCommandsWriteEachElement : Prop :=
  ∀ (i : Instr) (s : State), ∃ t, exec i s = .next t ∧
    (t.key ≠ s.key ∨ t.col ≠ s.col → i.mnemonic = .ins) ∧
    (t.count ≠ s.count ∨ t.ovf ≠ s.ovf → i.mnemonic = .ins ∨ i.mnemonic = .clr) ∧
    (t.bppsel ≠ s.bppsel → i.mnemonic = .setbpp) ∧
    (t.tbuf ≠ s.tbuf → i.mnemonic = .ldt ∨ i.mnemonic = .ldi ∨ i.mnemonic = .clr) ∧
    (t.tptr ≠ s.tptr → i.mnemonic = .tsel ∨ i.mnemonic = .ldt ∨ i.mnemonic = .ldi ∨ i.mnemonic = .clr) ∧
    t.input = s.input ∧ t.draws = s.draws

/-- R48: CVT, LKP, RDP, RDPB, RDT, STAT and NOP write no state, and repeated they give the same response. -/
def Obligations.ReadsWriteNothingAndRepeat : Prop :=
  ∀ (i : Instr) (s : State), i.mnemonic ∈ [Mnemonic.cvt, .lkp, .rdp, .rdpb, .rdt, .stat, .nop] →
    ∃ r, exec i s = .next { s with output := s.output ++ [r] } ∧
      exec i { s with output := s.output ++ [r] } = .next { s with output := s.output ++ [r] ++ [r] }

/-- R53 and R104: the block is deterministic up to the KEY and COL elements at or above COUNT. Any two states after reset
agree, so do two states just after CLR with the same BPPSEL, and two states that agree answer the same command words with
the same responses and agree again. -/
def Obligations.SameCommandsGiveSameResponses : Prop :=
  (∀ s t : State, s.PoweredOn → t.PoweredOn → Agree s t) ∧
  (∀ s t s' t' : State, s.bppsel = t.bppsel → exec .clr s = .next s' → exec .clr t = .next t' → Agree s' t') ∧
  ∀ (ws : List Word) (s t : State), Agree s t → s.input = ws.map .command → t.input = ws.map .command →
    ∃ s' t' rs, run ws.length s = .next s' ∧ run ws.length t = .next t' ∧ Agree s' t' ∧
      s'.output = s.output ++ rs ∧ t'.output = t.output ++ rs

/-! ## The assembler and the host procedure -/

/-- R70: a command line the assembler accepts becomes a word that decodes to a well-formed command with that mnemonic and
that operand; and every well-formed command has such a line. -/
def Obligations.AssembledLinesDecodeToTheirCommand : Prop :=
  (∀ (m : Mnemonic) (operand : Option Nat) (w : Word), assemble (.command m operand) = .ok w →
    ∃ i, decode w = .ok i ∧ i.mnemonic = m ∧ i.wellFormed = true ∧ i.operand.toNat = operand.getD 0) ∧
  ∀ i : Instr, i.wellFormed = true → ∃ operand, assemble (.command i.mnemonic operand) = .ok (encode i)

/-- R174 and R181: the host issues no command for an image whose width or height is not a multiple of 8, and for every other
image it issues `H×W + 64×(W/8)×(H/8) + tile_bytes×(W/8)×(H/8) + 2×COUNT + 3` commands. -/
def Obligations.HostProcedureCommandCount : Prop :=
  ∀ (img : Image) (b count : Nat),
    ((img.width % 8 ≠ 0 ∨ img.height % 8 ≠ 0) → hostEncode img b count = none) ∧
    (img.width % 8 = 0 → img.height % 8 = 0 →
      ∃ cmds, hostEncode img b count = some cmds ∧
        cmds.length = img.height * img.width + 64 * (img.width / 8) * (img.height / 8)
          + tileBytes b * (img.width / 8) * (img.height / 8) + 2 * count + 3)

/-- R173: for an image of W × H pixels, W and H multiples of 8, at 2 or 4 bpp, the reference host procedure is a command
sequence that, from any state at all, makes the block answer, in its RDT and RDPB responses, the source's tile stream and
palette stream, and in its STAT response the COUNT the procedure reads the palette with. The image as a list of pixels and
COUNT as the procedure's argument are log entry 14. -/
def Obligations.HostProcedureGivesTheSourceOutput : Prop :=
  ∀ (img : Image) (b : Nat), b = 2 ∨ b = 4 → img.pixels.length = img.width * img.height →
    img.width % 8 = 0 → img.height % 8 = 0 →
    ∃ cmds, hostEncode img b (sourcePalette img.pixels).length = some cmds ∧
      ∀ s : State, s.input = commandEvents cmds →
        ∃ t rs, run cmds.length s = .next t ∧ t.output = s.output ++ rs ∧
          tileStream cmds rs = sourceTiles img b ∧
          paletteStream cmds rs = serializePalette (sourcePalette img.pixels) ∧
          (rs.getD (2 + img.width * img.height) 0#32).toNat % 512 = (sourcePalette img.pixels).length
end

