-- ==== Sys2Proof/Laws/Decode.lean ====
section
/-!
SUPPORT. Lemmas of the decoder and the encoder: the fields of a word, the opcode map, the reserved bits.
-/

namespace Sys2Proof

/-! ### The fields of a word -/

/-- A command word is the number OPC × 2^24 + OPD (R60). -/
theorem word_append_toNat (opc : BitVec 8) (opd : Data) :
    BitVec.toNat (w := 32) (opc ++ opd) = opc.toNat * 2 ^ 24 + opd.toNat := by
  have h := BitVec.toNat_append opc opd
  rw [← Nat.shiftLeft_add_eq_or_of_lt opd.isLt, Nat.shiftLeft_eq] at h
  exact h

theorem opcodeField_toNat (w : Word) : (opcodeField w).toNat = w.toNat / 2 ^ 24 := by
  have := w.isLt
  simp only [opcodeField, BitVec.extractLsb'_toNat, Nat.shiftRight_eq_div_pow]
  omega

theorem operandField_toNat (w : Word) : (operandField w).toNat = w.toNat % 2 ^ 24 := by
  simp [operandField, BitVec.extractLsb'_toNat]

@[simp] theorem opcodeField_append (opc : BitVec 8) (opd : Data) : opcodeField (opc ++ opd) = opc := by
  apply BitVec.eq_of_toNat_eq
  have := opd.isLt
  rw [opcodeField_toNat, word_append_toNat]
  omega

@[simp] theorem operandField_append (opc : BitVec 8) (opd : Data) : operandField (opc ++ opd) = opd := by
  apply BitVec.eq_of_toNat_eq
  have := opd.isLt
  rw [operandField_toNat, word_append_toNat]
  omega

/-- A word is its two fields (R60). -/
theorem word_eq_fields (w : Word) : opcodeField w ++ operandField w = w := by
  apply BitVec.eq_of_toNat_eq
  have := w.isLt
  refine (word_append_toNat _ _).trans ?_
  rw [opcodeField_toNat, operandField_toNat]
  omega

/-! ### The opcode map -/

@[simp] theorem mnemonicOf_opcode (m : Mnemonic) : mnemonicOf m.opcode = some m := by
  cases m <;> decide

theorem opcode_of_mnemonicOf {opc : BitVec 8} {m : Mnemonic} (h : mnemonicOf opc = some m) : m.opcode = opc := by
  have := List.find?_some h
  simpa using this

theorem mnemonicOf_eq_some_iff {opc : BitVec 8} {m : Mnemonic} : mnemonicOf opc = some m ↔ opc = m.opcode := by
  constructor
  · intro h
    exact (opcode_of_mnemonicOf h).symm
  · rintro rfl
    exact mnemonicOf_opcode m

theorem Mnemonic.mem_all (m : Mnemonic) : m ∈ Mnemonic.all := by
  cases m <;> decide

@[simp] theorem Mnemonic.instr_mnemonic (m : Mnemonic) (opd : Data) : (m.instr opd).mnemonic = m := by
  cases m <;> rfl

/-! ### The reserved bits -/

/-- RESMASK is every operand bit above the form's field (R61, R64). -/
theorem Form.resMask_eq (f : Form) : f.resMask = BitVec.allOnes 24 <<< f.width := by
  cases f <;> decide

/-- The bits from `n` up are 0 exactly when the value is below 2^n. -/
theorem and_high_mask_eq_zero_iff (x : Data) (n : Nat) :
    x &&& (BitVec.allOnes 24 <<< n) = 0#24 ↔ x.toNat < 2 ^ n := by
  constructor
  · intro h
    apply Nat.lt_pow_two_of_testBit
    intro i hi
    by_cases h24 : i < 24
    · have hb := congrArg (fun b => b.getLsbD i) h
      have hn : i - n < 24 := by omega
      simp only [BitVec.getLsbD_and, BitVec.getLsbD_shiftLeft, BitVec.getLsbD_allOnes, BitVec.getLsbD_zero, h24, hn,
        Nat.not_lt.mpr hi, decide_true, decide_false, Bool.not_false, Bool.and_true] at hb
      exact hb
    · exact Nat.testBit_lt_two_pow (lt_of_lt_of_le x.isLt (Nat.pow_le_pow_right (by decide) (by omega)))
  · intro h
    apply BitVec.eq_of_getLsbD_eq
    intro i hi
    by_cases hn : i < n
    · simp [hn]
    · have : x.getLsbD i = false := by
        simpa [BitVec.getLsbD] using
          Nat.testBit_lt_two_pow (lt_of_lt_of_le h (Nat.pow_le_pow_right (by decide) (by omega)))
      simp [this]

/-- A reserved bit is set exactly when the operand does not fit the form's field (R61, R66). -/
theorem reserved_clear_iff (opd : Data) (f : Form) : opd &&& f.resMask = 0#24 ↔ opd.toNat < 2 ^ f.width := by
  rw [Form.resMask_eq, and_high_mask_eq_zero_iff]

/-- The operand of a command fits its form. -/
theorem Instr.operand_fits (i : Instr) : i.operand.toNat < 2 ^ i.mnemonic.form.width := by
  cases i <;> simp [Instr.operand, Instr.mnemonic, Mnemonic.form, Form.width] <;> omega

/-- Reading the operand back gives the command. -/
theorem Instr.instr_operand (i : Instr) : i.mnemonic.instr i.operand = i := by
  cases i <;> simp only [Instr.operand, Instr.mnemonic, Mnemonic.instr, Instr.setbpp.injEq, Instr.rdp.injEq,
    Instr.rdpb.injEq, Instr.tsel.injEq, Instr.ldi.injEq, Instr.rdt.injEq] <;>
    apply BitVec.eq_of_toNat_eq <;> simp [BitVec.extractLsb'_toNat] <;> omega

/-- An operand that fits its form is the one its command carries. -/
theorem Mnemonic.operand_instr (m : Mnemonic) (opd : Data) (h : opd.toNat < 2 ^ m.form.width) :
    (m.instr opd).operand = opd := by
  cases m <;> simp [Mnemonic.instr, Instr.operand, Mnemonic.form, Form.width] at h ⊢ <;>
    apply BitVec.eq_of_toNat_eq <;> simp <;> omega

/-! ### Decoding -/

/-- What the decoder accepts, said once: the opcode names the command, the operand fits its form, and the command is read
from it. -/
theorem decode_eq_ok_iff {w : Word} {i : Instr} :
    decode w = .ok i ↔ ∃ m : Mnemonic, opcodeField w = m.opcode ∧ (operandField w).toNat < 2 ^ m.form.width ∧
      m.instr (operandField w) = i := by
  unfold decode
  cases h : mnemonicOf (opcodeField w) with
  | none =>
    simp only [reduceCtorEq, false_iff, not_exists, not_and]
    intro m hm
    rw [hm, mnemonicOf_opcode] at h
    cases h
  | some m =>
    have hm := opcode_of_mnemonicOf h
    simp only [reserved_clear_iff]
    constructor
    · intro h2
      split at h2
      · exact ⟨m, hm.symm, ‹_›, by simpa using h2⟩
      · cases h2
    · rintro ⟨m', h1, h2, h3⟩
      have : m' = m := by
        rw [h1, mnemonicOf_opcode] at h
        exact Option.some.inj h
      subst this
      simp [h2, h3]

/-- The words with an unassigned opcode (R65). -/
theorem decode_eq_badOpcode_iff {w : Word} : decode w = .error .badOpcode ↔ mnemonicOf (opcodeField w) = none := by
  unfold decode
  cases h : mnemonicOf (opcodeField w) with
  | none => simp
  | some m => simp only [reduceCtorEq, iff_false]; split <;> simp

/-- The words with an assigned opcode and an operand too wide for its form (R66). -/
theorem decode_eq_reservedBits_iff {w : Word} :
    decode w = .error .reservedBits ↔
      ∃ m : Mnemonic, opcodeField w = m.opcode ∧ 2 ^ m.form.width ≤ (operandField w).toNat := by
  unfold decode
  cases h : mnemonicOf (opcodeField w) with
  | none =>
    simp only [Except.error.injEq, reduceCtorEq, false_iff, not_exists, not_and]
    intro m hm
    rw [hm, mnemonicOf_opcode] at h
    cases h
  | some m =>
    have hm := opcode_of_mnemonicOf h
    simp only [reserved_clear_iff]
    constructor
    · intro h2
      split at h2
      · cases h2
      · exact ⟨m, hm.symm, by omega⟩
    · rintro ⟨m', h1, h2⟩
      have : m' = m := by
        rw [h1, mnemonicOf_opcode] at h
        exact Option.some.inj h
      subst this
      simp [Nat.not_lt.mpr h2]

/-- The decoder never answers OUT_OF_RANGE: that error is a meaning's (R151, R152). -/
theorem decode_ne_outOfRange (w : Word) : decode w ≠ .error .outOfRange := by
  unfold decode
  split
  · simp
  · split <;> simp

/-- No two rows of the opcode table share a word. -/
theorem rows_disjoint {m m' : Mnemonic} (h : m ≠ m') : m.row.2 &&& m'.row.2 &&& (m.row.1 ^^^ m'.row.1) ≠ 0#32 := by
  revert h
  cases m <;> cases m' <;> decide

end Sys2Proof
end

