-- ==== Sys2Proof/Laws/Flags.lean ====
section
/-!
SUPPORT. Lemmas of the response word, the error codes and the status word, as numbers and field by field.
-/

namespace Sys2Proof.Machine

/-- Concatenation with the high part a multiple of 2^n, as a sum. -/
theorem append_toNat_add {m n : Nat} (x : BitVec m) (y : BitVec n) :
    (x ++ y).toNat = x.toNat * 2 ^ n + y.toNat := by
  rw [BitVec.toNat_append, ← Nat.shiftLeft_add_eq_or_of_lt y.isLt, Nat.shiftLeft_eq]

/-- A response without an error, as a number (R68). -/
theorem okWord_toNat (f : RespFlags) (d : Data) :
    (okWord f d).toNat =
      f.miss.toNat * 2 ^ 30 + f.new.toNat * 2 ^ 29 + f.drop.toNat * 2 ^ 28 + d.toNat := by
  show BitVec.toNat (w := 1 + 1 + 1 + 1 + 4 + 24) (_ ++ d) = _
  simp only [append_toNat_add]
  obtain ⟨m, n, p⟩ := f
  cases m <;> cases n <;> cases p <;> simp

/-- `respond({}, data)`: the response is the data. -/
theorem okWord_noFlags (d : Data) : okWord noFlags d = d.setWidth 32 := by
  apply BitVec.eq_of_toNat_eq
  have := d.isLt
  rw [okWord_toNat]
  simp [noFlags]
  omega

/-- `respond({MISS}, 0)` (R121). -/
theorem okWord_missFlag : okWord missFlag 0#24 = 0x40000000#32 := by decide

/-- `respond({MISS, DROP}, 0)` (R101). -/
theorem okWord_missDropFlags : okWord missDropFlags 0#24 = 0x50000000#32 := by decide

/-- `respond({NEW}, n)` (R101). -/
theorem okWord_newFlag (d : Data) : okWord newFlag d = BitVec.ofNat 32 (0x20000000 + d.toNat) := by
  apply BitVec.eq_of_toNat_eq
  have := d.isLt
  rw [okWord_toNat]
  simp [newFlag]
  omega

/-- `0x80000000 | (code << 24)` (R150). -/
theorem errorWord_eq (e : CmdError) : errorWord e = 0x80000000#32 ||| ((errorCode e).setWidth 32 <<< 24) := by
  cases e <;> decide

theorem errorWord_injective {e e' : CmdError} (h : errorWord e = errorWord e') : e = e' := by
  cases e <;> cases e' <;> first | rfl | (exact absurd h (by decide))

/-! ### The fields of a response -/

theorem respErr_eq (r : Word) : respErr r = decide (r.toNat / 2 ^ 31 % 2 = 1) := by
  simp [respErr, BitVec.getLsbD, Nat.testBit_eq_decide_div_mod_eq]

theorem respMiss_eq (r : Word) : respMiss r = decide (r.toNat / 2 ^ 30 % 2 = 1) := by
  simp [respMiss, BitVec.getLsbD, Nat.testBit_eq_decide_div_mod_eq]

theorem respNew_eq (r : Word) : respNew r = decide (r.toNat / 2 ^ 29 % 2 = 1) := by
  simp [respNew, BitVec.getLsbD, Nat.testBit_eq_decide_div_mod_eq]

theorem respDrop_eq (r : Word) : respDrop r = decide (r.toNat / 2 ^ 28 % 2 = 1) := by
  simp [respDrop, BitVec.getLsbD, Nat.testBit_eq_decide_div_mod_eq]

theorem okWord_div (f : RespFlags) (d : Data) :
    (okWord f d).toNat / 2 ^ 24 =
      f.miss.toNat * 64 + f.new.toNat * 32 + f.drop.toNat * 16 := by
  have := d.isLt
  rw [okWord_toNat]
  omega

@[simp] theorem respErr_okWord (f : RespFlags) (d : Data) : respErr (okWord f d) = false := by
  have h := okWord_div f d
  have h1 := f.miss.toNat_le; have h2 := f.new.toNat_le; have h3 := f.drop.toNat_le
  rw [respErr_eq]
  simp only [decide_eq_false_iff_not]
  omega

@[simp] theorem respMiss_okWord (f : RespFlags) (d : Data) : respMiss (okWord f d) = f.miss := by
  have h := okWord_div f d
  have h2 := f.new.toNat_le; have h3 := f.drop.toNat_le
  rw [respMiss_eq]
  cases hm : f.miss <;> simp only [hm, Bool.toNat_true, Bool.toNat_false, decide_eq_true_eq, decide_eq_false_iff_not] at h ⊢ <;> omega

@[simp] theorem respNew_okWord (f : RespFlags) (d : Data) : respNew (okWord f d) = f.new := by
  have h := okWord_div f d
  have h2 := f.miss.toNat_le; have h3 := f.drop.toNat_le
  rw [respNew_eq]
  cases hm : f.new <;> simp only [hm, Bool.toNat_true, Bool.toNat_false, decide_eq_true_eq, decide_eq_false_iff_not] at h ⊢ <;> omega

@[simp] theorem respDrop_okWord (f : RespFlags) (d : Data) : respDrop (okWord f d) = f.drop := by
  have h := okWord_div f d
  have h2 := f.miss.toNat_le; have h3 := f.new.toNat_le
  rw [respDrop_eq]
  cases hm : f.drop <;> simp only [hm, Bool.toNat_true, Bool.toNat_false, decide_eq_true_eq, decide_eq_false_iff_not] at h ⊢ <;> omega

@[simp] theorem respEcode_okWord (f : RespFlags) (d : Data) : respEcode (okWord f d) = 0#4 := by
  have h := okWord_div f d
  apply BitVec.eq_of_toNat_eq
  simp only [respEcode, BitVec.extractLsb'_toNat, Nat.shiftRight_eq_div_pow, h, BitVec.toNat_ofNat]
  omega

@[simp] theorem respData_okWord (f : RespFlags) (d : Data) : respData (okWord f d) = d := by
  apply BitVec.eq_of_toNat_eq
  have := d.isLt
  simp only [respData, BitVec.extractLsb'_toNat, Nat.shiftRight_eq_div_pow, okWord_toNat]
  omega

@[simp] theorem respErr_errorWord (e : CmdError) : respErr (errorWord e) = true := by cases e <;> decide
@[simp] theorem respMiss_errorWord (e : CmdError) : respMiss (errorWord e) = false := by cases e <;> decide
@[simp] theorem respNew_errorWord (e : CmdError) : respNew (errorWord e) = false := by cases e <;> decide
@[simp] theorem respDrop_errorWord (e : CmdError) : respDrop (errorWord e) = false := by cases e <;> decide
@[simp] theorem respEcode_errorWord (e : CmdError) : respEcode (errorWord e) = errorCode e := by cases e <;> decide
@[simp] theorem respData_errorWord (e : CmdError) : respData (errorWord e) = 0#24 := by cases e <;> decide

/-- No response is both a result and an error. -/
theorem okWord_ne_errorWord (f : RespFlags) (d : Data) (e : CmdError) : okWord f d ≠ errorWord e := by
  intro h
  have := congrArg respErr h
  simp at this

/-! ### The status word -/

/-- STATUS as a number, field by field (R30). -/
theorem statusWord_toNat (s : State) :
    s.statusWord.toNat =
      s.tptr.toNat * 2 ^ 12 + s.bppsel.toNat * 2 ^ 11 + s.capw.toNat * 2 ^ 10 + s.ovf.toNat * 2 ^ 9
        + s.count.toNat := by
  show BitVec.toNat (w := 6 + 6 + 1 + 1 + 1 + 9) (_ ++ s.count) = _
  simp only [append_toNat_add, BitVec.toNat_ofBool]
  simp
  omega

end Sys2Proof.Machine
end

