-- ==== Sys2Proof/Laws/Operands.lean ====
section
/-!
SUPPORT. Lemmas of the color truncation and of the operand fields, as numbers.
-/

namespace Sys2Proof.Machine

/-! ### The channels and the color -/

theorem red_toNat (rgb : Rgb) : (red rgb).toNat = rgb.toNat / 65536 := by
  have := rgb.isLt
  simp only [red, BitVec.extractLsb'_toNat, Nat.shiftRight_eq_div_pow]
  omega

theorem green_toNat (rgb : Rgb) : (green rgb).toNat = rgb.toNat / 256 % 256 := by
  simp [green, BitVec.extractLsb'_toNat, Nat.shiftRight_eq_div_pow]

theorem blue_toNat (rgb : Rgb) : (blue rgb).toNat = rgb.toNat % 256 := by
  simp [blue, BitVec.extractLsb'_toNat]

/-- `trunc5(c)` equals `c >> 3` (R90). -/
theorem trunc5_toNat (c : BitVec 8) : (trunc5 c).toNat = c.toNat / 8 := by
  have := c.isLt
  simp only [trunc5, BitVec.extractLsb'_toNat, Nat.shiftRight_eq_div_pow]
  omega

/-- The color as the sum of its three channel fields (R91). -/
theorem snes_toNat (rgb : Rgb) :
    (snes rgb).toNat = rgb.toNat % 256 / 8 * 1024 + rgb.toNat / 256 % 256 / 8 * 32 + rgb.toNat / 65536 / 8 := by
  show BitVec.toNat (w := 5 + 5 + 5) (_ ++ trunc5 (red rgb)) = _
  simp only [append_toNat_add, trunc5_toNat, red_toNat, green_toNat, blue_toNat]
  omega

/-- The channels of a triple given by its three channel numbers (R11). -/
theorem channels_of_sum (r g b : Nat) (hr : r < 256) (hg : g < 256) (hb : b < 256) :
    (r * 65536 + g * 256 + b) % 2 ^ 24 = r * 65536 + g * 256 + b ∧ (r * 65536 + g * 256 + b) % 256 = b ∧
      (r * 65536 + g * 256 + b) / 256 % 256 = g ∧ (r * 65536 + g * 256 + b) / 65536 = r := by
  refine ⟨?_, ?_, ?_, ?_⟩ <;> omega

/-- A triple is the sum of its channels (R11). -/
theorem rgb_eq_channels (rgb : Rgb) :
    rgb.toNat = rgb.toNat / 65536 * 65536 + rgb.toNat / 256 % 256 * 256 + rgb.toNat % 256 := by
  omega

/-- Red is the low field of a color, green the middle one, blue the high one (R91). -/
theorem snes_fields (rgb : Rgb) :
    (snes rgb).toNat % 32 = rgb.toNat / 65536 / 8 ∧ (snes rgb).toNat / 32 % 32 = rgb.toNat / 256 % 256 / 8 ∧
      (snes rgb).toNat / 1024 = rgb.toNat % 256 / 8 := by
  have hr : rgb.toNat / 65536 / 8 < 32 := by have := rgb.isLt; omega
  have hg : rgb.toNat / 256 % 256 / 8 < 32 := by omega
  have hs := snes_toNat rgb
  generalize rgb.toNat / 65536 / 8 = r at *
  generalize rgb.toNat / 256 % 256 / 8 = g at *
  generalize rgb.toNat % 256 / 8 = b at *
  refine ⟨?_, ?_, ?_⟩ <;> omega

/-! ### The tile's index fields -/

theorem slotOf_toNat (x y : BitVec 3) : (slotOf x y).toNat = y.toNat * 8 + x.toNat :=
  append_toNat_add y x

theorem rowOfByte_toNat (k : BitVec 5) : (rowOfByte k).toNat = k.toNat % 16 / 2 := by
  simp only [rowOfByte, BitVec.extractLsb'_toNat, Nat.shiftRight_eq_div_pow]
  omega

theorem planeOfByte_toNat (k : BitVec 5) : (planeOfByte k).toNat = 2 * (k.toNat / 16) + k.toNat % 2 := by
  have := k.isLt
  show BitVec.toNat (w := 1 + 1) (k.extractLsb' 4 1 ++ k.extractLsb' 0 1) = _
  simp only [append_toNat_add, BitVec.extractLsb'_toNat, Nat.shiftRight_eq_div_pow]
  omega

theorem entryOfByte_toNat (j : BitVec 9) : (entryOfByte j).toNat = j.toNat / 2 := by
  have := j.isLt
  simp only [entryOfByte, BitVec.extractLsb'_toNat, Nat.shiftRight_eq_div_pow]
  omega

/-! ### The format -/

@[simp] theorem bpp_true {s : State} (h : s.bppsel = true) : s.bpp = 4 := by simp [State.bpp, h]
@[simp] theorem bpp_false {s : State} (h : s.bppsel = false) : s.bpp = 2 := by simp [State.bpp, h]

theorem bpp_cases (s : State) : s.bpp = 2 ∨ s.bpp = 4 := by
  unfold State.bpp
  split <;> simp

theorem capacity_le_sixteen (b : Nat) : capacity b ≤ 16 := by
  unfold capacity
  split <;> simp

theorem bppselOf_eq_none_iff {b : BitVec 3} : bppselOf b = none ↔ b ≠ 2#3 ∧ b ≠ 4#3 := by
  unfold bppselOf
  split
  · simp_all
  · split <;> simp_all

end Sys2Proof.Machine
end

