-- ==== Sys2Proof/Laws/State.lean ====
section
/-!
SUPPORT. One lemma for each field under each update of the state, so that no later proof unfolds a record update.
-/

namespace Sys2Proof.Machine

section respond
variable (s : State) (f : RespFlags) (d : Data)
@[simp] theorem State.respond_key : (s.respond f d).key = s.key := rfl
@[simp] theorem State.respond_col : (s.respond f d).col = s.col := rfl
@[simp] theorem State.respond_count : (s.respond f d).count = s.count := rfl
@[simp] theorem State.respond_ovf : (s.respond f d).ovf = s.ovf := rfl
@[simp] theorem State.respond_bppsel : (s.respond f d).bppsel = s.bppsel := rfl
@[simp] theorem State.respond_tbuf : (s.respond f d).tbuf = s.tbuf := rfl
@[simp] theorem State.respond_tptr : (s.respond f d).tptr = s.tptr := rfl
@[simp] theorem State.respond_input : (s.respond f d).input = s.input := rfl
@[simp] theorem State.respond_output : (s.respond f d).output = s.output ++ [okWord f d] := rfl
@[simp] theorem State.respond_draws : (s.respond f d).draws = s.draws := rfl
end respond

section raise
variable (s : State) (e : CmdError)
@[simp] theorem State.raise_key : (s.raise e).key = s.key := rfl
@[simp] theorem State.raise_col : (s.raise e).col = s.col := rfl
@[simp] theorem State.raise_count : (s.raise e).count = s.count := rfl
@[simp] theorem State.raise_ovf : (s.raise e).ovf = s.ovf := rfl
@[simp] theorem State.raise_bppsel : (s.raise e).bppsel = s.bppsel := rfl
@[simp] theorem State.raise_tbuf : (s.raise e).tbuf = s.tbuf := rfl
@[simp] theorem State.raise_tptr : (s.raise e).tptr = s.tptr := rfl
@[simp] theorem State.raise_input : (s.raise e).input = s.input := rfl
@[simp] theorem State.raise_output : (s.raise e).output = s.output ++ [errorWord e] := rfl
@[simp] theorem State.raise_draws : (s.raise e).draws = s.draws := rfl
end raise

section appendEntry
variable (s : State) (rgb : Rgb)
@[simp] theorem State.appendEntry_key : (s.appendEntry rgb).key = s.key.setIfInBounds s.count.toNat rgb := rfl
@[simp] theorem State.appendEntry_col : (s.appendEntry rgb).col = s.col.setIfInBounds s.count.toNat (snes rgb) := rfl
@[simp] theorem State.appendEntry_count : (s.appendEntry rgb).count = s.count + 1#9 := rfl
@[simp] theorem State.appendEntry_ovf : (s.appendEntry rgb).ovf = s.ovf := rfl
@[simp] theorem State.appendEntry_bppsel : (s.appendEntry rgb).bppsel = s.bppsel := rfl
@[simp] theorem State.appendEntry_tbuf : (s.appendEntry rgb).tbuf = s.tbuf := rfl
@[simp] theorem State.appendEntry_tptr : (s.appendEntry rgb).tptr = s.tptr := rfl
@[simp] theorem State.appendEntry_input : (s.appendEntry rgb).input = s.input := rfl
@[simp] theorem State.appendEntry_output : (s.appendEntry rgb).output = s.output := rfl
@[simp] theorem State.appendEntry_draws : (s.appendEntry rgb).draws = s.draws := rfl
end appendEntry

section markOverflow
variable (s : State)
@[simp] theorem State.markOverflow_key : s.markOverflow.key = s.key := rfl
@[simp] theorem State.markOverflow_col : s.markOverflow.col = s.col := rfl
@[simp] theorem State.markOverflow_count : s.markOverflow.count = s.count := rfl
@[simp] theorem State.markOverflow_ovf : s.markOverflow.ovf = true := rfl
@[simp] theorem State.markOverflow_bppsel : s.markOverflow.bppsel = s.bppsel := rfl
@[simp] theorem State.markOverflow_tbuf : s.markOverflow.tbuf = s.tbuf := rfl
@[simp] theorem State.markOverflow_tptr : s.markOverflow.tptr = s.tptr := rfl
@[simp] theorem State.markOverflow_input : s.markOverflow.input = s.input := rfl
@[simp] theorem State.markOverflow_output : s.markOverflow.output = s.output := rfl
@[simp] theorem State.markOverflow_draws : s.markOverflow.draws = s.draws := rfl
end markOverflow

section clear
variable (s : State)
@[simp] theorem State.clear_key : s.clear.key = s.key := rfl
@[simp] theorem State.clear_col : s.clear.col = s.col := rfl
@[simp] theorem State.clear_count : s.clear.count = 0#9 := rfl
@[simp] theorem State.clear_ovf : s.clear.ovf = false := rfl
@[simp] theorem State.clear_bppsel : s.clear.bppsel = s.bppsel := rfl
@[simp] theorem State.clear_tbuf : s.clear.tbuf = Vector.replicate 64 0#8 := rfl
@[simp] theorem State.clear_tptr : s.clear.tptr = 0#6 := rfl
@[simp] theorem State.clear_input : s.clear.input = s.input := rfl
@[simp] theorem State.clear_output : s.clear.output = s.output := rfl
@[simp] theorem State.clear_draws : s.clear.draws = s.draws := rfl
end clear

section setBppsel
variable (s : State) (b : Bool)
@[simp] theorem State.setBppsel_key : (s.setBppsel b).key = s.key := rfl
@[simp] theorem State.setBppsel_col : (s.setBppsel b).col = s.col := rfl
@[simp] theorem State.setBppsel_count : (s.setBppsel b).count = s.count := rfl
@[simp] theorem State.setBppsel_ovf : (s.setBppsel b).ovf = s.ovf := rfl
@[simp] theorem State.setBppsel_bppsel : (s.setBppsel b).bppsel = b := rfl
@[simp] theorem State.setBppsel_tbuf : (s.setBppsel b).tbuf = s.tbuf := rfl
@[simp] theorem State.setBppsel_tptr : (s.setBppsel b).tptr = s.tptr := rfl
@[simp] theorem State.setBppsel_input : (s.setBppsel b).input = s.input := rfl
@[simp] theorem State.setBppsel_output : (s.setBppsel b).output = s.output := rfl
@[simp] theorem State.setBppsel_draws : (s.setBppsel b).draws = s.draws := rfl
end setBppsel

section setTptr
variable (s : State) (slot : BitVec 6)
@[simp] theorem State.setTptr_key : (s.setTptr slot).key = s.key := rfl
@[simp] theorem State.setTptr_col : (s.setTptr slot).col = s.col := rfl
@[simp] theorem State.setTptr_count : (s.setTptr slot).count = s.count := rfl
@[simp] theorem State.setTptr_ovf : (s.setTptr slot).ovf = s.ovf := rfl
@[simp] theorem State.setTptr_bppsel : (s.setTptr slot).bppsel = s.bppsel := rfl
@[simp] theorem State.setTptr_tbuf : (s.setTptr slot).tbuf = s.tbuf := rfl
@[simp] theorem State.setTptr_tptr : (s.setTptr slot).tptr = slot := rfl
@[simp] theorem State.setTptr_input : (s.setTptr slot).input = s.input := rfl
@[simp] theorem State.setTptr_output : (s.setTptr slot).output = s.output := rfl
@[simp] theorem State.setTptr_draws : (s.setTptr slot).draws = s.draws := rfl
end setTptr

section loadSlot
variable (s : State) (v : Byte)
@[simp] theorem State.loadSlot_key : (s.loadSlot v).key = s.key := rfl
@[simp] theorem State.loadSlot_col : (s.loadSlot v).col = s.col := rfl
@[simp] theorem State.loadSlot_count : (s.loadSlot v).count = s.count := rfl
@[simp] theorem State.loadSlot_ovf : (s.loadSlot v).ovf = s.ovf := rfl
@[simp] theorem State.loadSlot_bppsel : (s.loadSlot v).bppsel = s.bppsel := rfl
@[simp] theorem State.loadSlot_tbuf : (s.loadSlot v).tbuf = s.tbuf.set s.tptr.toNat v s.tptr.isLt := rfl
@[simp] theorem State.loadSlot_tptr : (s.loadSlot v).tptr = s.tptr + 1#6 := rfl
@[simp] theorem State.loadSlot_input : (s.loadSlot v).input = s.input := rfl
@[simp] theorem State.loadSlot_output : (s.loadSlot v).output = s.output := rfl
@[simp] theorem State.loadSlot_draws : (s.loadSlot v).draws = s.draws := rfl
end loadSlot

section powerOnReset
variable (s : State)
@[simp] theorem State.powerOnReset_key : s.powerOnReset.key = Config.resetKey s.draws := rfl
@[simp] theorem State.powerOnReset_col : s.powerOnReset.col = Config.resetCol s.draws := rfl
@[simp] theorem State.powerOnReset_count : s.powerOnReset.count = 0#9 := rfl
@[simp] theorem State.powerOnReset_ovf : s.powerOnReset.ovf = false := rfl
@[simp] theorem State.powerOnReset_bppsel : s.powerOnReset.bppsel = true := rfl
@[simp] theorem State.powerOnReset_tbuf : s.powerOnReset.tbuf = Vector.replicate 64 0#8 := rfl
@[simp] theorem State.powerOnReset_tptr : s.powerOnReset.tptr = 0#6 := rfl
@[simp] theorem State.powerOnReset_input : s.powerOnReset.input = s.input := rfl
@[simp] theorem State.powerOnReset_output : s.powerOnReset.output = s.output := rfl
@[simp] theorem State.powerOnReset_draws : s.powerOnReset.draws = s.draws + 1 := rfl
end powerOnReset

section withInput
variable (s : State) (l : List HostEvent)
@[simp] theorem State.withInput_key : (s.withInput l).key = s.key := rfl
@[simp] theorem State.withInput_col : (s.withInput l).col = s.col := rfl
@[simp] theorem State.withInput_count : (s.withInput l).count = s.count := rfl
@[simp] theorem State.withInput_ovf : (s.withInput l).ovf = s.ovf := rfl
@[simp] theorem State.withInput_bppsel : (s.withInput l).bppsel = s.bppsel := rfl
@[simp] theorem State.withInput_tbuf : (s.withInput l).tbuf = s.tbuf := rfl
@[simp] theorem State.withInput_tptr : (s.withInput l).tptr = s.tptr := rfl
@[simp] theorem State.withInput_input : (s.withInput l).input = l := rfl
@[simp] theorem State.withInput_output : (s.withInput l).output = s.output := rfl
@[simp] theorem State.withInput_draws : (s.withInput l).draws = s.draws := rfl
end withInput

end Sys2Proof.Machine
end

