-- ==== Sys2Proof/Laws/Palette.lean ====
section
/-!
SUPPORT. The search of the palette and the palette's readout: everything `find`, `lookup` and `appendEntry` can do, said
once.
-/

namespace Sys2Proof.Machine

/-! ### find -/

theorem validKeys_length (s : State) : s.validKeys.length = min s.count.toNat 256 := by
  simp [State.validKeys]

theorem validKeys_getElem (s : State) (i : Nat) (h : i < s.validKeys.length) :
    s.validKeys[i] = s.key[i]'(by rw [validKeys_length] at h; omega) := by
  simp [State.validKeys]

theorem mem_validKeys_iff {s : State} {rgb : Rgb} : rgb ∈ s.validKeys ↔ s.Present rgb := by
  constructor
  · intro h
    obtain ⟨i, hi, rfl⟩ := List.mem_iff_getElem.mp h
    have hl := validKeys_length s
    exact ⟨⟨i, by omega⟩, by show i < _; omega, (validKeys_getElem s i hi).symm⟩
  · rintro ⟨i, hi, rfl⟩
    have hl := validKeys_length s
    exact List.mem_iff_getElem.mpr ⟨i.val, by omega, validKeys_getElem s i.val (by omega)⟩

/-- What `find` answers, said once: a valid index of the triple, the lowest one. -/
theorem find_eq_some_iff {s : State} {rgb : Rgb} {i : Nat} :
    s.find rgb = some i ↔ ∃ h : i < 256, i < s.count.toNat ∧ s.key[i] = rgb ∧
      ∀ j, (hj : j < i) → s.key[j] ≠ rgb := by
  have hl := validKeys_length s
  unfold State.find
  rw [List.findIdx?_eq_some_iff_getElem]
  constructor
  · rintro ⟨hi, h1, h2⟩
    refine ⟨by omega, by omega, ?_, ?_⟩
    · rw [validKeys_getElem] at h1
      simpa using h1
    · intro j hj
      have := h2 j hj
      rw [validKeys_getElem] at this
      simpa using this
  · rintro ⟨h, hc, h1, h2⟩
    refine ⟨by omega, ?_, ?_⟩
    · rw [validKeys_getElem]
      simpa using h1
    · intro j hj
      rw [validKeys_getElem]
      simpa using h2 j hj

/-- `find` answers none exactly when the triple is in no valid entry (R100). -/
theorem find_eq_none_iff {s : State} {rgb : Rgb} : s.find rgb = none ↔ ¬ s.Present rgb := by
  unfold State.find
  rw [List.findIdx?_eq_none_iff, ← mem_validKeys_iff]
  constructor
  · intro h hm
    simpa using h rgb hm
  · intro h k hk
    simp only [beq_eq_false_iff_ne, ne_eq]
    rintro rfl
    exact h hk

theorem find_lt {s : State} {rgb : Rgb} {i : Nat} (h : s.find rgb = some i) : i < 256 ∧ i < s.count.toNat := by
  obtain ⟨h1, h2, -⟩ := find_eq_some_iff.mp h
  exact ⟨h1, h2⟩

/-- In a good state `find` is the inverse of KEY on the valid entries (R100, INV2). -/
theorem find_key {s : State} (hs : s.Inv) {i : Nat} (h : i < 256) (hc : i < s.count.toNat) :
    s.find s.key[i] = some i := by
  refine find_eq_some_iff.mpr ⟨h, hc, rfl, ?_⟩
  intro j hj
  exact hs.keys_distinct ⟨j, by omega⟩ ⟨i, h⟩ hj hc

theorem present_iff_find {s : State} {rgb : Rgb} : s.Present rgb ↔ ∃ i, s.find rgb = some i := by
  rw [← Option.isSome_iff_exists, Option.isSome_iff_ne_none, ne_eq, find_eq_none_iff, Classical.not_not]

/-- `find` reads KEY and COUNT only (R100). -/
theorem find_congr {s t : State} (hk : s.key = t.key) (hc : s.count = t.count) (rgb : Rgb) :
    s.find rgb = t.find rgb := by
  simp [State.find, State.validKeys, hk, hc]

/-! ### lookup -/

theorem lookup_of_find {s : State} {rgb : Rgb} {i : Nat} (h : s.find rgb = some i) :
    s.lookup rgb = (BitVec.ofNat 8 i, false) := by
  simp [State.lookup, h]

theorem lookup_of_absent {s : State} {rgb : Rgb} (h : ¬ s.Present rgb) : s.lookup rgb = (0#8, true) := by
  simp [State.lookup, find_eq_none_iff.mpr h]

/-! ### Appending -/

theorem count_add_one {s : State} (h : s.count.toNat < 256) : (s.count + 1#9).toNat = s.count.toNat + 1 := by
  simp
  omega

theorem appendEntry_key_eq {s : State} (rgb : Rgb) (h : s.count.toNat < 256) :
    (s.appendEntry rgb).key = s.key.set s.count.toNat rgb h := by
  ext i hi
  simp [Vector.getElem_setIfInBounds, Vector.getElem_set]

theorem appendEntry_col_eq {s : State} (rgb : Rgb) (h : s.count.toNat < 256) :
    (s.appendEntry rgb).col = s.col.set s.count.toNat (snes rgb) h := by
  ext i hi
  simp [Vector.getElem_setIfInBounds, Vector.getElem_set]

theorem appendEntry_key_getElem {s : State} (rgb : Rgb) (i : Nat) (h : i < 256) :
    (s.appendEntry rgb).key[i] = if s.count.toNat = i then rgb else s.key[i] := by
  simp [Vector.getElem_setIfInBounds]

theorem appendEntry_col_getElem {s : State} (rgb : Rgb) (i : Nat) (h : i < 256) :
    (s.appendEntry rgb).col[i] = if s.count.toNat = i then snes rgb else s.col[i] := by
  simp [Vector.getElem_setIfInBounds]

/-- Appending a novel triple keeps the invariants (R31, R101). -/
theorem appendEntry_inv {s : State} {rgb : Rgb} (hs : s.Inv) (hc : s.count.toNat < 256) (hn : ¬ s.Present rgb) :
    (s.appendEntry rgb).Inv := by
  have h1 := count_add_one hc
  constructor
  · simp only [State.appendEntry_count, h1]
    omega
  · intro i j hij hj
    simp only [State.appendEntry_count, h1] at hj
    simp only [Fin.getElem_fin, appendEntry_key_getElem]
    have hij' : i.val < j.val := hij
    rw [if_neg (by omega)]
    split
    · intro he
      exact hn ⟨i, by omega, he⟩
    · exact hs.keys_distinct i j hij (by omega)
  · intro i hi
    simp only [State.appendEntry_count, h1] at hi
    simp only [Fin.getElem_fin, appendEntry_key_getElem, appendEntry_col_getElem]
    split
    · rfl
    · exact hs.colors_match i (by omega)
  · intro ho
    have := hs.ovf_full ho
    omega

/-- An entry stays where it is when another is appended (R124). -/
theorem find_appendEntry_of_found {s : State} {rgb u : Rgb} {i : Nat} (hc : s.count.toNat < 256)
    (h : s.find u = some i) : (s.appendEntry rgb).find u = some i := by
  obtain ⟨h1, h2, h3, h4⟩ := find_eq_some_iff.mp h
  refine find_eq_some_iff.mpr ⟨h1, ?_, ?_, ?_⟩
  · simp only [State.appendEntry_count, count_add_one hc]
    omega
  · rw [appendEntry_key_getElem, if_neg (by omega)]
    exact h3
  · intro j hj
    rw [appendEntry_key_getElem, if_neg (by omega)]
    exact h4 j hj

/-- The appended triple is found at the old COUNT (R101). -/
theorem find_appendEntry_self {s : State} {rgb : Rgb} (hc : s.count.toNat < 256) (hn : ¬ s.Present rgb) :
    (s.appendEntry rgb).find rgb = some s.count.toNat := by
  refine find_eq_some_iff.mpr ⟨hc, ?_, ?_, ?_⟩
  · simp only [State.appendEntry_count, count_add_one hc]
    omega
  · rw [appendEntry_key_getElem, if_pos rfl]
  · intro j hj
    rw [appendEntry_key_getElem, if_neg (by omega)]
    intro he
    exact hn ⟨⟨j, by omega⟩, hj, he⟩

/-- The valid keys after an append: the new triple at the end (R103). -/
theorem validKeys_appendEntry {s : State} (rgb : Rgb) (hc : s.count.toNat < 256) :
    (s.appendEntry rgb).validKeys = s.validKeys ++ [rgb] := by
  apply List.ext_getElem
  · simp only [List.length_append, validKeys_length, State.appendEntry_count, count_add_one hc, List.length_singleton]
    omega
  · intro i h1 h2
    rw [validKeys_getElem, appendEntry_key_getElem, List.getElem_append]
    simp only [validKeys_length, State.appendEntry_count, count_add_one hc] at h1 ⊢
    split
    · rw [dif_neg (by omega)]
      simp
    · rw [dif_pos (by omega), validKeys_getElem]

/-! ### Readout -/

/-- The low or the high byte of an entry's field (R42, R106). -/
theorem serializedByte_toNat (s : State) (j : BitVec 9) :
    (s.serializedByte j).toNat = (s.colorAt (entryOfByte j)).toNat / 256 ^ (j.toNat % 2) % 256 := by
  have hb : j.getLsbD 0 = decide (j.toNat % 2 = 1) := by
    simp [BitVec.getLsbD, Nat.testBit_zero]
  have hc := (s.colorAt (entryOfByte j)).isLt
  unfold State.serializedByte State.colorField
  rw [hb]
  rcases Nat.mod_two_eq_zero_or_one j.toNat with h | h
  · simp only [h, Nat.zero_ne_one, decide_false, Bool.false_eq_true, if_false, BitVec.extractLsb'_toNat,
      BitVec.toNat_setWidth, Nat.shiftRight_zero]
    omega
  · simp only [h, decide_true, if_true, BitVec.extractLsb'_toNat, BitVec.toNat_setWidth, Nat.shiftRight_eq_div_pow]
    omega

end Sys2Proof.Machine
end

