-- ==== Sys2Proof/Laws/Tile.lean ====
section
/-!
SUPPORT. The tile buffer and the packer: what a load does to each slot, and which slot bit each bit of a packed byte is.
-/

namespace Sys2Proof.Machine

/-! ### Loading a slot -/

theorem loadSlot_slotAt (s : State) (v : Byte) (slot : BitVec 6) :
    (s.loadSlot v).slotAt slot = if slot = s.tptr then v else s.slotAt slot := by
  simp only [State.slotAt, State.loadSlot_tbuf, Vector.getElem_set]
  by_cases h : slot = s.tptr
  · simp [h]
  · have : s.tptr.toNat ≠ slot.toNat := fun he => h (BitVec.eq_of_toNat_eq he.symm)
    simp [h, this]

theorem clear_slotAt (s : State) (slot : BitVec 6) : s.clear.slotAt slot = 0#8 := by
  simp [State.slotAt]

/-- TPTR after a load (R29). -/
theorem loadSlot_tptr_toNat (s : State) (v : Byte) : (s.loadSlot v).tptr.toNat = (s.tptr.toNat + 1) % 64 := by
  simp

/-! ### Packing -/

/-- The pixel of column x as the byte with that one bit at 7 - x. -/
def columnBit (b : Bool) (x : Nat) : Byte := (BitVec.ofBool b).setWidth 8 <<< (7 - x)

/-- Eight column bits, ORed, are eight bits side by side (R131). -/
theorem columnBits_getLsbD :
    ∀ b0 b1 b2 b3 b4 b5 b6 b7 : Bool, ∀ i : Fin 8,
      (0#8 ||| columnBit b0 0 ||| columnBit b1 1 ||| columnBit b2 2 ||| columnBit b3 3 ||| columnBit b4 4
        ||| columnBit b5 5 ||| columnBit b6 6 ||| columnBit b7 7).getLsbD i
      = ([b7, b6, b5, b4, b3, b2, b1, b0][i]) := by
  decide +kernel

/-- Bit 7 - x of a plane byte is bit p of the slot of pixel x (R131, R43). -/
theorem planeByte_getLsbD (s : State) (y x : BitVec 3) (p : BitVec 2) :
    (s.planeByte y p).getLsbD (7 - x.toNat) = (s.slotAt (slotOf x y)).getLsbD p.toNat := by
  have h := columnBits_getLsbD
    ((s.slotAt (slotOf 0#3 y)).getLsbD p.toNat) ((s.slotAt (slotOf 1#3 y)).getLsbD p.toNat)
    ((s.slotAt (slotOf 2#3 y)).getLsbD p.toNat) ((s.slotAt (slotOf 3#3 y)).getLsbD p.toNat)
    ((s.slotAt (slotOf 4#3 y)).getLsbD p.toNat) ((s.slotAt (slotOf 5#3 y)).getLsbD p.toNat)
    ((s.slotAt (slotOf 6#3 y)).getLsbD p.toNat) ((s.slotAt (slotOf 7#3 y)).getLsbD p.toNat)
  have hx : x = 0#3 ∨ x = 1#3 ∨ x = 2#3 ∨ x = 3#3 ∨ x = 4#3 ∨ x = 5#3 ∨ x = 6#3 ∨ x = 7#3 := by
    revert x
    decide
  rcases hx with rfl | rfl | rfl | rfl | rfl | rfl | rfl | rfl
  · exact h 7
  · exact h 6
  · exact h 5
  · exact h 4
  · exact h 3
  · exact h 2
  · exact h 1
  · exact h 0

/-- The same, over numbers: bit 7 - x of byte k of the packed tile is bit `2*(k/16) + k%2` of slot
`8*((k%16)/2) + x` (R132, R138). -/
theorem packByte_getLsbD (s : State) (k : BitVec 5) (x : Nat) (hx : x < 8) :
    (s.packByte k).getLsbD (7 - x) =
      (s.tbuf[k.toNat % 16 / 2 * 8 + x]'(by omega)).getLsbD (2 * (k.toNat / 16) + k.toNat % 2) := by
  have h := planeByte_getLsbD s (rowOfByte k) (BitVec.ofNat 3 x) (planeOfByte k)
  have hx8 : (BitVec.ofNat 3 x).toNat = x := by simp; omega
  rw [hx8] at h
  rw [State.packByte, h, planeOfByte_toNat, State.slotAt]
  have : (slotOf (BitVec.ofNat 3 x) (rowOfByte k)).toNat = k.toNat % 16 / 2 * 8 + x := by
    rw [slotOf_toNat, rowOfByte_toNat, hx8]
  simp only [this]

/-- The packer reads TBUF only (R137). -/
theorem packByte_congr {s t : State} (h : s.tbuf = t.tbuf) (k : BitVec 5) : s.packByte k = t.packByte k := by
  simp [State.packByte, State.planeByte, State.slotAt, h]

end Sys2Proof.Machine
end

