-- ==== Sys2Proof/Laws/Exec.lean ====
section
/-!
SUPPORT. What a command can do, said once: one inversion of `exec` into the shared operations, and one lemma for each
kind of event.
-/

namespace Sys2Proof.Machine

/-- The effects of a command, one constructor for each way a meaning ends; the state after it is the second argument. -/
inductive Effect (s : State) : Instr → State → Prop where
  | nop : Effect s .nop (s.respond noFlags 0#24)
  | clr : Effect s .clr (s.clear.respond noFlags 0#24)
  | setbpp {b sel} (h : bppselOf b = some sel) : Effect s (.setbpp b) ((s.setBppsel sel).respond noFlags 0#24)
  | setbppBad {b} (h : bppselOf b = none) : Effect s (.setbpp b) (s.raise .outOfRange)
  | stat : Effect s .stat (s.respond noFlags s.statusWord)
  | insHit {rgb i} (h : s.find rgb = some i) : Effect s (.ins rgb) (s.respond noFlags (BitVec.ofNat 24 i))
  | insNew {rgb} (h : ¬ s.Present rgb) (hc : s.count.toNat < 256) :
      Effect s (.ins rgb) ((s.appendEntry rgb).respond newFlag (s.count.setWidth 24))
  | insDrop {rgb} (h : ¬ s.Present rgb) (hc : 256 ≤ s.count.toNat) :
      Effect s (.ins rgb) (s.markOverflow.respond missDropFlags 0#24)
  | lkpHit {rgb i} (h : s.find rgb = some i) :
      Effect s (.lkp rgb) (s.respond noFlags ((BitVec.ofNat 8 i).setWidth 24))
  | lkpMiss {rgb} (h : ¬ s.Present rgb) : Effect s (.lkp rgb) (s.respond missFlag 0#24)
  | cvt {rgb} : Effect s (.cvt rgb) (s.respond noFlags ((snes rgb).setWidth 24))
  | rdp {i} (h : i.toNat < s.count.toNat) : Effect s (.rdp i) (s.respond noFlags ((s.colorField i).setWidth 24))
  | rdpBad {i} (h : s.count.toNat ≤ i.toNat) : Effect s (.rdp i) (s.raise .outOfRange)
  | rdpb {j} (h : j.toNat < 2 * s.count.toNat) :
      Effect s (.rdpb j) (s.respond noFlags ((s.serializedByte j).setWidth 24))
  | rdpbBad {j} (h : 2 * s.count.toNat ≤ j.toNat) : Effect s (.rdpb j) (s.raise .outOfRange)
  | tsel {slot} : Effect s (.tsel slot) ((s.setTptr slot).respond noFlags (slot.setWidth 24))
  | ldtHit {rgb i} (h : s.find rgb = some i) :
      Effect s (.ldt rgb) ((s.loadSlot (BitVec.ofNat 8 i)).respond noFlags ((BitVec.ofNat 8 i).setWidth 24))
  | ldtMiss {rgb} (h : ¬ s.Present rgb) : Effect s (.ldt rgb) ((s.loadSlot 0#8).respond missFlag 0#24)
  | ldi {v} : Effect s (.ldi v) ((s.loadSlot v).respond noFlags (v.setWidth 24))
  | rdt {k} (h : k.toNat < tileBytes s.bpp) : Effect s (.rdt k) (s.respond noFlags ((s.packByte k).setWidth 24))
  | rdtBad {k} (h : tileBytes s.bpp ≤ k.toNat) : Effect s (.rdt k) (s.raise .outOfRange)

/-- Every command completes, with one of the effects above. -/
theorem exec_effect (i : Instr) (s : State) : ∃ t, exec i s = .next t ∧ Effect s i t := by
  cases i with
  | nop => exact ⟨_, rfl, .nop⟩
  | clr => exact ⟨_, rfl, .clr⟩
  | setbpp b =>
    cases h : bppselOf b with
    | none => exact ⟨_, by simp [exec, execSetbpp, h], .setbppBad h⟩
    | some sel => exact ⟨_, by simp [exec, execSetbpp, h], .setbpp h⟩
  | stat => exact ⟨_, rfl, .stat⟩
  | ins rgb =>
    cases h : s.find rgb with
    | some i => exact ⟨_, by simp [exec, execIns, h], .insHit h⟩
    | none =>
      by_cases hc : s.count.toNat < 256
      · exact ⟨_, by simp [exec, execIns, h, hc], .insNew (find_eq_none_iff.mp h) hc⟩
      · exact ⟨_, by simp [exec, execIns, h, hc], .insDrop (find_eq_none_iff.mp h) (by omega)⟩
  | lkp rgb =>
    cases h : s.find rgb with
    | some i => exact ⟨_, by simp [exec, execLkp, lookup_of_find h], .lkpHit h⟩
    | none =>
      have hn := find_eq_none_iff.mp h
      exact ⟨_, by simp [exec, execLkp, lookup_of_absent hn], .lkpMiss hn⟩
  | cvt rgb => exact ⟨_, rfl, .cvt⟩
  | rdp i =>
    by_cases h : s.count.toNat ≤ i.toNat
    · exact ⟨_, by simp [exec, execRdp, h], .rdpBad h⟩
    · exact ⟨_, by simp [exec, execRdp, h], .rdp (by omega)⟩
  | rdpb j =>
    by_cases h : 2 * s.count.toNat ≤ j.toNat
    · exact ⟨_, by simp [exec, execRdpb, h], .rdpbBad h⟩
    · exact ⟨_, by simp [exec, execRdpb, h], .rdpb (by omega)⟩
  | tsel slot => exact ⟨_, rfl, .tsel⟩
  | ldt rgb =>
    cases h : s.find rgb with
    | some i => exact ⟨_, by simp [exec, execLdt, lookup_of_find h], .ldtHit h⟩
    | none =>
      have hn := find_eq_none_iff.mp h
      exact ⟨_, by simp [exec, execLdt, lookup_of_absent hn], .ldtMiss hn⟩
  | ldi v => exact ⟨_, rfl, .ldi⟩
  | rdt k =>
    by_cases h : tileBytes s.bpp ≤ k.toNat
    · exact ⟨_, by simp [exec, execRdt, h], .rdtBad h⟩
    · exact ⟨_, by simp [exec, execRdt, h], .rdt (by omega)⟩

/-- The inversion of `exec`: a next state is that of one of the effects. -/
theorem effect_of_exec {i : Instr} {s t : State} (h : exec i s = .next t) : Effect s i t := by
  obtain ⟨t', h1, h2⟩ := exec_effect i s
  rw [h1] at h
  cases h
  exact h2

/-! ### Events -/

theorem step_of_input {s : State} {e : HostEvent} {rest : List HostEvent} (h : s.input = e :: rest) :
    step s = performEvent e (s.withInput rest) := by
  simp [step, serve, h]

theorem performWord_of_ok {w : Word} {i : Instr} (h : decode w = .ok i) (s : State) :
    performWord w s = exec i s := by
  simp [performWord, h]

theorem performWord_of_error {w : Word} {e : CmdError} (h : decode w = .error e) (s : State) :
    performWord w s = .next (s.raise e) := by
  simp [performWord, h]

/-- What one step can do, said once: nothing, a command's effect, a command error, or a reset. -/
theorem step_next_cases {s t : State} (h : step s = .next t) :
    (s.input = [] ∧ t = s) ∨
    (∃ w rest i, s.input = .command w :: rest ∧ decode w = .ok i ∧ Effect (s.withInput rest) i t) ∨
    (∃ w rest e, s.input = .command w :: rest ∧ decode w = .error e ∧ t = (s.withInput rest).raise e) ∨
    (∃ lost rest, s.input = .powerOnReset lost :: rest ∧ t = (s.withInput rest).powerOnReset) := by
  cases hi : s.input with
  | nil =>
    simp only [step, serve, hi] at h
    cases h
    exact .inl ⟨rfl, rfl⟩
  | cons e rest =>
    rw [step_of_input hi] at h
    cases e with
    | command w =>
      cases hd : decode w with
      | ok i =>
        simp only [performEvent, performWord_of_ok hd] at h
        exact .inr (.inl ⟨w, rest, i, rfl, hd, effect_of_exec h⟩)
      | error e =>
        simp only [performEvent, performWord_of_error hd] at h
        cases h
        exact .inr (.inr (.inl ⟨w, rest, e, rfl, hd, rfl⟩))
    | powerOnReset lost =>
      simp only [performEvent] at h
      cases h
      exact .inr (.inr (.inr ⟨lost, rest, rfl, rfl⟩))
    | secondHostCommand w => simp [performEvent] at h

/-- Every command effect returns exactly one response and takes nothing off the channel. -/
theorem Effect.channel {s t : State} {i : Instr} (h : Effect s i t) :
    t.input = s.input ∧ t.draws = s.draws ∧ ∃ r, t.output = s.output ++ [r] := by
  cases h <;> simp

end Sys2Proof.Machine
end

