-- ==== Sys2Proof/Laws/PerInstr.lean ====
section
/-!
SUPPORT. Statements made command by command: the word of a command is an instance of its row of spec/opcode_table.json
(R63, R70).
-/

namespace Sys2Proof.Laws

/-- The command's word has the row's bits wherever the row fixes them. -/
def EncodeFitsRow.Statement (i : Instr) : Prop := i.mnemonic.matchesRow (encode i) = true

/-- A word fits a row when its opcode is the row's and its operand leaves the reserved bits 0. -/
theorem matchesRow_of_fields (m : Mnemonic) (opd : Data) (h : opd &&& m.form.resMask = 0#24) :
    m.matchesRow (m.opcode ++ opd) = true := by
  have hrow : m.row = (m.opcode ++ 0#24, 0xFF#8 ++ m.form.resMask) := by cases m <;> rfl
  have hopc : m.opcode &&& 0xFF#8 = m.opcode := by cases m <;> rfl
  simp only [Mnemonic.matchesRow, hrow, beq_iff_eq]
  exact (BitVec.and_append (w := 8) (v := 24)).trans (by rw [h, hopc])

theorem encode_fits (i : Instr) : EncodeFitsRow.Statement i :=
  matchesRow_of_fields _ _ ((reserved_clear_iff _ _).mpr i.operand_fits)

theorem EncodeFitsRow.nop : EncodeFitsRow.Statement .nop := encode_fits _
theorem EncodeFitsRow.clr : EncodeFitsRow.Statement .clr := encode_fits _
theorem EncodeFitsRow.setbpp (b : BitVec 3) : EncodeFitsRow.Statement (.setbpp b) := encode_fits _
theorem EncodeFitsRow.stat : EncodeFitsRow.Statement .stat := encode_fits _
theorem EncodeFitsRow.ins (rgb : Rgb) : EncodeFitsRow.Statement (.ins rgb) := encode_fits _
theorem EncodeFitsRow.lkp (rgb : Rgb) : EncodeFitsRow.Statement (.lkp rgb) := encode_fits _
theorem EncodeFitsRow.cvt (rgb : Rgb) : EncodeFitsRow.Statement (.cvt rgb) := encode_fits _
theorem EncodeFitsRow.rdp (i : BitVec 8) : EncodeFitsRow.Statement (.rdp i) := encode_fits _
theorem EncodeFitsRow.rdpb (j : BitVec 9) : EncodeFitsRow.Statement (.rdpb j) := encode_fits _
theorem EncodeFitsRow.tsel (slot : BitVec 6) : EncodeFitsRow.Statement (.tsel slot) := encode_fits _
theorem EncodeFitsRow.ldt (rgb : Rgb) : EncodeFitsRow.Statement (.ldt rgb) := encode_fits _
theorem EncodeFitsRow.ldi (v : BitVec 8) : EncodeFitsRow.Statement (.ldi v) := encode_fits _
theorem EncodeFitsRow.rdt (k : BitVec 5) : EncodeFitsRow.Statement (.rdt k) := encode_fits _

end Sys2Proof.Laws
end

