-- ==== Sys2Proof/Laws/Run.lean ====
section
/-!
SUPPORT. Runs of several steps: one step of a run, and a run in two parts.
-/

namespace Sys2Proof.Machine

theorem run_zero (s : State) : run 0 s = .next s := rfl

theorem run_succ {s t : State} (h : step s = .next t) (n : Nat) : run (n + 1) s = run n t := by
  simp only [run, h]

/-- A run that goes on to a next state took its first step. -/
theorem step_of_run {s t : State} {n : Nat} (h : run (n + 1) s = .next t) :
    ∃ u, step s = .next u ∧ run n u = .next t := by
  unfold run at h
  split at h
  · exact ⟨_, ‹_›, h⟩
  · cases h
  · cases h

/-- A run is the host's run of the machine. -/
theorem run_eq_core_run (n : Nat) (s : State) : run n s = Host.Core.run core n s := by
  induction n generalizing s with
  | zero => rfl
  | succ n ih =>
    cases h : core.step s with
    | next t =>
      have h' : step s = .next t := h
      rw [run_succ h', ih t]
      simp only [Host.Core.run, h]
      rfl
    | fault r => cases r
    | refused r =>
      have h' : step s = .refused r := h
      simp only [Host.Core.run, h, run, h']
      rfl

/-- A run of m + n steps is a run of n steps after one of m. -/
theorem run_add {s t : State} {m : Nat} (n : Nat) (h : run m s = .next t) : run (m + n) s = run n t := by
  induction m generalizing s with
  | zero =>
    rw [run_zero] at h
    cases h
    rw [Nat.zero_add]
  | succ m ih =>
    obtain ⟨u, hs, hr⟩ := step_of_run h
    rw [Nat.succ_add, run_succ hs]
    exact ih hr

end Sys2Proof.Machine
end

