-- ==== Sys2Proof/Tests/Slice0.lean ====
section
/-!
SUPPORT. Tests and witnesses. The expected values are those of spec/95_test_vectors.md and of the examples in the rules, or
are written out by hand from the encodings of R61 and R63; each test names its source. A witness shows a concrete state and
operands that meet the hypotheses of a statement, at the boundary values of each clause.
-/

namespace Sys2Proof.Tests

open Sys2Proof.Machine

/-! ## Decoding: words written out bit by bit from R60, R61 and R63 -/

theorem test_decode_control :
    decode 0b00000000000000000000000000000000#32 = .ok .nop ∧
    decode 0b00000001000000000000000000000000#32 = .ok .clr ∧
    decode 0b00000010000000000000000000000100#32 = .ok (.setbpp 4#3) ∧
    decode 0b00000011000000000000000000000000#32 = .ok .stat := by decide

theorem test_decode_triples :
    decode 0b00010000111111110000000000000001#32 = .ok (.ins 0xFF0001#24) ∧
    decode 0b00010001000000001111111100000010#32 = .ok (.lkp 0x00FF02#24) ∧
    decode 0b00010010000100100011010001010110#32 = .ok (.cvt 0x123456#24) ∧
    decode 0b00100001100000000000000001111111#32 = .ok (.ldt 0x80007F#24) := by decide

theorem test_decode_indexes :
    decode 0b00010011000000000000000010000001#32 = .ok (.rdp 0x81#8) ∧
    decode 0b00010100000000000000000111111110#32 = .ok (.rdpb 0x1FE#9) ∧
    decode 0b00100000000000000000000000111110#32 = .ok (.tsel 62#6) ∧
    decode 0b00100010000000000000000010101010#32 = .ok (.ldi 0xAA#8) ∧
    decode 0b00100011000000000000000000010001#32 = .ok (.rdt 17#5) := by decide

/-- The illegal words of §2.1 and the `.word` rows of §2.3 and §2.5, by name (R65, R66, R152). -/
theorem test_decode_refusals :
    [0x04000000#32, 0x0F000000#32, 0x15000000#32, 0x1F000000#32, 0x24000000#32, 0xFF000000#32, 0x05FFFFFF#32].map decode =
      List.replicate 7 (.error .badOpcode) ∧
    [0x00000001#32, 0x01800000#32, 0x02000008#32, 0x0200000C#32, 0x0200000B#32, 0x03000010#32, 0x13000100#32,
        0x14000200#32, 0x20000040#32, 0x22000100#32, 0x23000020#32].map decode =
      List.replicate 11 (.error .reservedBits) := by decide +kernel

/-- The table's numbering: a 32-bit row's word is the command word. -/
theorem test_decodeTableWord :
    decodeTableWord 32 0x02000004 = some (.setbpp 4#3) ∧ decodeTableWord 32 0x2300001F = some (.rdt 31#5) ∧
      decodeTableWord 32 0x05000000 = none := by decide

/-! ## Well-formedness and the assembler (R70, R82) -/

/-- The one check of WellFormed, and ill-formed commands it refuses. -/
theorem test_wellFormed_setbpp :
    Instr.wellFormed (.setbpp 2#3) = true ∧ Instr.wellFormed (.setbpp 4#3) = true ∧
    Instr.wellFormed (.setbpp 3#3) = false ∧ Instr.wellFormed (.setbpp 0#3) = false := by decide

/-- Operands that do not fit their field, an operand too many and one too few. -/
theorem test_assemble_refusals :
    assemble (.command .rdp (some 256)) = .error .doesNotFit ∧ assemble (.command .rdpb (some 512)) = .error .doesNotFit ∧
    assemble (.command .tsel (some 64)) = .error .doesNotFit ∧ assemble (.command .rdt (some 32)) = .error .doesNotFit ∧
    assemble (.command .ins (some (2 ^ 24))) = .error .doesNotFit ∧
    assemble (.command .setbpp (some 3)) = .error .doesNotFit ∧ assemble (.rawWord (2 ^ 32)) = .error .doesNotFit ∧
    assemble (.command .nop (some 0)) = .error .operandCount ∧ assemble (.command .ldi none) = .error .operandCount := by
  decide

/-- Lines of the programs of §3, as text. -/
theorem test_assembleLine :
    assembleLine "INS 0x123456 ; pixel 0".toList = .ok (some 0x10123456#32) ∧
    assembleLine "setbpp 2".toList = .ok (some 0x02000002#32) ∧
    assembleLine "LDI 15".toList = .ok (some 0x2200000F#32) ∧
    assembleLine ".word 0x02000003".toList = .ok (some 0x02000003#32) ∧
    assembleLine "STAT".toList = .ok (some 0x03000000#32) ∧
    assembleLine "SETBPP 3".toList = .error .doesNotFit ∧
    assembleLine "; only a comment".toList = .ok none := by decide +kernel

/-! ## One step on a small state (spec/95_test_vectors.md) -/

/-- The last response after the command word `w`, if the step answers a next state. -/
def answer (s : State) (w : Nat) : Option Word :=
  match step (s.withFetchWord 32 w) with
  | .next t => t.output.getLast?
  | .fault _ => none
  | .refused _ => none

/-- The state after the command word `w`. -/
def after (s : State) (w : Nat) : State :=
  match step (s.withFetchWord 32 w) with
  | .next t => t
  | .fault _ => s
  | .refused _ => s

/-- The state after row 7 of §2.3: four entries, three of one color. -/
def four : State :=
  { State.reset with
    key := (((State.reset.key.set 0 0xFF0000#24).set 1 0x0000FF#24).set 2 0xF80000#24).set 3 0xFC0000#24
    col := (((State.reset.col.set 0 0x001F#15).set 1 0x7C00#15).set 2 0x001F#15).set 3 0x001F#15
    count := 4#9 }

/-- The state after step 2 of P3: KEY[i] = i and COL[i] = (i >> 3) << 10 for all 256 entries. -/
def full : State :=
  { State.reset with
    key := Vector.ofFn fun i => BitVec.ofNat 24 i.val
    col := Vector.ofFn fun i => BitVec.ofNat 15 (i.val / 8 * 1024)
    count := 256#9 }

/-- The tile of S6: index 15 in slot 0. -/
def tile15 : State := { State.reset with tbuf := State.reset.tbuf.set 0 15#8 }

/-- A state that has dropped a triple (P3, step 3). -/
def dropped : State := { full with ovf := true }

/-- A state at 2 bpp. -/
def twoBpp : State := { State.reset with bppsel := false }

theorem test_nop : answer four 0x00000000 = some 0x00000000#32 := by decide +kernel

/-- §2.1: COUNT, OVF, TPTR and TBUF are 0 and BPPSEL is kept. -/
theorem test_clr :
    let t := after { dropped with bppsel := false, tptr := 5#6, tbuf := tile15.tbuf } 0x01000000
    t.count = 0#9 ∧ t.ovf = false ∧ t.tptr = 0#6 ∧ t.tbuf[0] = 0#8 ∧ t.bppsel = false := by decide +kernel

/-- §2.1: SETBPP 2, 4 and the six illegal values. -/
theorem test_setbpp :
    (after State.reset 0x02000002).bppsel = false ∧ (after twoBpp 0x02000004).bppsel = true ∧
    ∀ w ∈ [0x02000000, 0x02000001, 0x02000003, 0x02000005, 0x02000006, 0x02000007],
      answer State.reset w = some 0x83000000#32 := by decide +kernel

/-- §2.1, §2.3 row 16, P3 step 8, P2 step 9. -/
theorem test_stat :
    answer State.reset 0x03000000 = some 0x00000800#32 ∧ answer four 0x03000000 = some 0x00000804#32 ∧
    answer dropped 0x03000000 = some 0x00000F00#32 ∧
    answer { four with count := 5#9, bppsel := false } 0x03000000 = some 0x00000405#32 ∧
    answer { four with tptr := 2#6 } 0x03000000 = some 0x00002804#32 := by decide +kernel

/-- §2.3 rows 3 to 7 and P3 steps 3 and 5. -/
theorem test_ins_response :
    answer State.reset 0x10FF0000 = some 0x20000000#32 ∧ answer four 0x10FF0000 = some 0x00000000#32 ∧
    answer { four with count := 3#9 } 0x10FC0000 = some 0x20000003#32 ∧ answer full 0x10000100 = some 0x50000000#32 ∧
    answer dropped 0x100000FF = some 0x000000FF#32 := by decide +kernel

/-- The new entry is the INS's triple and its color; the drop writes OVF and no entry. -/
theorem test_ins_state :
    (let t := after State.reset 0x10123456; t.count = 1#9 ∧ t.key[0] = 0x123456#24 ∧ t.col[0] = 0x28C2#15) ∧
    (let t := after full 0x10000100; t.count = 256#9 ∧ t.ovf = true ∧ t.key[0] = 0#24) := by decide +kernel

/-- §2.4, P3 steps 6, 7 and 17. -/
theorem test_lkp :
    answer four 0x110000FF = some 0x00000001#32 ∧ answer four 0x1100FF00 = some 0x40000000#32 ∧
    answer four 0x11FF0001 = some 0x40000000#32 ∧ answer full 0x11000080 = some 0x00000080#32 ∧
    answer State.reset 0x110000FF = some 0x40000000#32 := by decide +kernel

/-- §2.2. -/
theorem test_cvt :
    [0x12000000, 0x12FFFFFF, 0x12070707, 0x12080808, 0x12FF0000, 0x1200FF00, 0x120000FF, 0x12123456, 0x12F80000,
        0x12FC0000, 0x127F7F7F, 0x12808080, 0x12ABCDEF].map (answer State.reset) =
      [0x0000#32, 0x7FFF#32, 0x0000#32, 0x0421#32, 0x001F#32, 0x03E0#32, 0x7C00#32, 0x28C2#32, 0x001F#32, 0x001F#32,
        0x3DEF#32, 0x4210#32, 0x7735#32].map some := by decide +kernel

/-- §2.3 rows 1 and 8 to 11, P3 steps 9 and 10. -/
theorem test_rdp :
    answer State.reset 0x13000000 = some 0x83000000#32 ∧ answer four 0x13000001 = some 0x00007C00#32 ∧
    answer four 0x13000003 = some 0x0000001F#32 ∧ answer four 0x13000004 = some 0x83000000#32 ∧
    answer full 0x130000FF = some 0x00007C00#32 ∧ answer full 0x13000008 = some 0x00000400#32 := by decide +kernel

/-- §2.3 rows 2, 12 and 13, P3 steps 11 to 13. -/
theorem test_rdpb :
    ((List.range 8).map fun j => answer four (0x14000000 + j)) =
      [0x1F#32, 0x00#32, 0x00#32, 0x7C#32, 0x1F#32, 0x00#32, 0x1F#32, 0x00#32].map some ∧
    answer State.reset 0x14000000 = some 0x83000000#32 ∧ answer four 0x14000008 = some 0x83000000#32 ∧
    answer full 0x140001FE = some 0x00000000#32 ∧ answer full 0x140001FF = some 0x0000007C#32 ∧
    answer full 0x14000200 = some 0x82000000#32 := by decide +kernel

/-- §2.5. -/
theorem test_tsel : answer State.reset 0x2000003F = some 0x0000003F#32 ∧ (after State.reset 0x2000003F).tptr = 63#6 := by
  decide +kernel

/-- §2.4 and the example of R122: a hit and a miss. -/
theorem test_ldt :
    (let s := { four with tptr := 5#6, tbuf := Vector.replicate 64 9#8 }
     let t := after s 0x210000FF
     let u := after s 0x2100FF00
     answer s 0x210000FF = some 0x00000001#32 ∧ t.tbuf[5] = 1#8 ∧ t.tbuf[4] = 9#8 ∧ t.tptr = 6#6 ∧
     answer s 0x2100FF00 = some 0x40000000#32 ∧ u.tbuf[5] = 0#8 ∧ u.tptr = 6#6) := by decide +kernel

/-- §2.5: the wrap at slot 63, and all 8 bits are stored. -/
theorem test_ldi :
    (let t := after { State.reset with tptr := 63#6 } 0x220000AA
     t.tbuf[63] = 0xAA#8 ∧ t.tbuf[0] = 0#8 ∧ t.tptr = 0#6 ∧ t.output = [0x000000AA#32]) := by decide +kernel

/-- S6: bytes 0, 1, 16 and 17 are 0x80 and every other byte 0. -/
theorem test_rdt_tile :
    (List.range 32).map (fun k => answer tile15 (0x23000000 + k)) =
      (List.range 32).map fun k => some (if k = 0 ∨ k = 1 ∨ k = 16 ∨ k = 17 then 0x80#32 else 0#32) := by
  decide +kernel

/-- §2.5: row 0 = 0..7 at 4 and at 2 bpp, and the corner cases at 2 bpp. -/
theorem test_rdt_row :
    (let s := { State.reset with tbuf := Vector.ofFn fun n : Fin 64 => if n.val < 8 then BitVec.ofNat 8 n.val else 0#8 }
     let t := { s with bppsel := false }
     answer s 0x23000000 = some 0x55#32 ∧ answer s 0x23000001 = some 0x33#32 ∧ answer s 0x23000010 = some 0x0F#32 ∧
     answer s 0x23000011 = some 0#32 ∧ answer t 0x23000000 = some 0x55#32 ∧ answer t 0x2300000F = some 0#32 ∧
     answer t 0x23000010 = some 0x83000000#32 ∧ answer t 0x23000020 = some 0x82000000#32) := by decide +kernel

/-- The source's own example (S6) for its encodeTile, and S8. -/
theorem test_encodeTile :
    (encodeTile (15#8 :: List.replicate 63 0#8) 4).take 2 = [0x80#8, 0x80#8] ∧
    encodeTile (List.replicate 64 5#8) 2 = encodeTile (List.replicate 64 1#8) 2 := by decide +kernel

/-- P4: the palette of red, blue, red and F80000, serialized. -/
theorem test_serializePalette :
    sourcePalette [0xFF0000#24, 0x0000FF#24, 0xFF0000#24, 0xF80000#24] = [0xFF0000#24, 0x0000FF#24, 0xF80000#24] ∧
    serializePalette [0xFF0000#24, 0x0000FF#24, 0xF80000#24] = [0x1F#8, 0x00#8, 0x00#8, 0x7C#8, 0x1F#8, 0x00#8] := by
  decide +kernel

/-! ## Witnesses for the statements with hypotheses -/

/-- The next event is the command word `w`. -/
abbrev sends (s : State) (w : Word) : State := { s with input := [.command w] }

theorem next_of_sent (s : State) (w : Word) : ∃ t, step (sends s w) = .next t := by
  rw [step_of_input (show (sends s w).input = .command w :: [] from rfl)]
  cases hd : decode w with
  | error e => exact ⟨_, performWord_of_error hd _⟩
  | ok i =>
    obtain ⟨t, ht, -⟩ := exec_effect i ((sends s w).withInput [])
    exact ⟨t, (performWord_of_ok hd _).trans ht⟩

/-- INV1 to INV4 from the lists of valid entries, which can be computed. -/
theorem inv_of_lists {s : State} (h1 : s.count.toNat ≤ 256) (h2 : s.validKeys.Nodup)
    (h3 : s.col.toList.take s.count.toNat = s.validKeys.map snes) (h4 : s.ovf = true → s.count.toNat = 256) : s.Inv where
  count_le := h1
  keys_distinct i j hij hj he := by
    have hl := validKeys_length s
    have := List.nodup_iff_injective_get.mp h2 (a₁ := ⟨i.val, by omega⟩) (a₂ := ⟨j.val, by omega⟩)
      (by simpa [validKeys_getElem] using he)
    simp only [Fin.mk.injEq] at this
    omega
  colors_match i hi := by
    have hl := validKeys_length s
    have := congrArg (fun l => l[i.val]?) h3
    simpa [List.getElem?_take, hi, validKeys_getElem, List.getElem?_eq_getElem (show i.val < s.validKeys.length by omega)]
      using this
  ovf_full := h4

theorem inv_four : four.Inv := inv_of_lists (by decide) (by decide +kernel) (by decide +kernel) (by decide)

theorem dropped_key (i : Fin 256) : dropped.key[i] = BitVec.ofNat 24 i.val := by
  show (Vector.ofFn fun i : Fin 256 => BitVec.ofNat 24 i.val)[i.val] = _
  rw [Vector.getElem_ofFn]
theorem dropped_col (i : Fin 256) : dropped.col[i] = BitVec.ofNat 15 (i.val / 8 * 1024) := by
  show (Vector.ofFn fun i : Fin 256 => BitVec.ofNat 15 (i.val / 8 * 1024))[i.val] = _
  rw [Vector.getElem_ofFn]
theorem dropped_count : dropped.count = 256#9 := rfl
theorem dropped_key_ne {c : Rgb} (h : 256 ≤ c.toNat) (i : Fin 256) : dropped.key[i] ≠ c := by
  intro he
  rw [dropped_key] at he
  have := congrArg BitVec.toNat he
  rw [BitVec.toNat_ofNat] at this
  omega

theorem inv_dropped : dropped.Inv where
  count_le := by rw [dropped_count]; decide
  keys_distinct i j hij _ he := by
    have := congrArg BitVec.toNat he
    rw [dropped_key, dropped_key, BitVec.toNat_ofNat, BitVec.toNat_ofNat] at this
    omega
  colors_match i _ := by
    apply BitVec.eq_of_toNat_eq
    have := i.isLt
    rw [snes_toNat, dropped_key, dropped_col, BitVec.toNat_ofNat, BitVec.toNat_ofNat]
    omega
  ovf_full _ := by rw [dropped_count]; rfl

theorem witness_EncodeOfDecodeIsTheWord : decode 0x2300001F#32 = .ok (.rdt 31#5) := by decide

/-- The ends of the three unassigned ranges, and their neighbors, which are assigned. -/
theorem witness_UnassignedOpcodesAreRefused :
    [0x04000000#32, 0x0F000000#32, 0x15000000#32, 0x1F000000#32, 0x24000000#32, 0xFF000000#32].map decode =
      List.replicate 6 (.error .badOpcode) ∧
    [0x03000000#32, 0x10000000#32, 0x14000000#32, 0x20000000#32, 0x23000000#32].all
      (fun w => decide (decode w ≠ .error .badOpcode)) = true ∧
    (sends State.reset 0x04000000#32).input = .command 0x04000000#32 :: [] := by decide +kernel

/-- The lowest reserved bit of each form, and the highest operand that has none. -/
theorem witness_ReservedOperandBitsAreRefused :
    [(Mnemonic.nop, 1#24), (.setbpp, 8#24), (.rdp, 256#24), (.rdpb, 512#24), (.tsel, 64#24), (.rdt, 32#24)].all
      (fun p => decide (2 ^ p.1.form.width ≤ p.2.toNat ∧ ¬ 2 ^ p.1.form.width ≤ (p.2 - 1#24).toNat)) = true ∧
    (sends State.reset (Mnemonic.setbpp.opcode ++ 8#24)).input = .command (Mnemonic.setbpp.opcode ++ 8#24) :: [] := by
  decide +kernel

/-- Each of the three ways of the check: an unassigned opcode, a reserved bit, and neither. -/
theorem witness_StepChecksOpcodeThenReservedBits :
    (sends State.reset 0x05FFFFFF#32).input = .command 0x05FFFFFF#32 :: [] ∧
    mnemonicOf ((0x05FFFFFF#32).extractLsb' 24 8) = none ∧
    mnemonicOf ((0x0200000B#32).extractLsb' 24 8) = some .setbpp ∧
    2 ^ Mnemonic.setbpp.form.width ≤ (0x0200000B#32).toNat % 2 ^ 24 ∧
    ¬ 2 ^ Mnemonic.setbpp.form.width ≤ (0x02000004#32).toNat % 2 ^ 24 := by decide +kernel

theorem witness_ZeroWordChangesNothing : (sends State.reset 0#32).input = .command 0#32 :: [] := rfl

theorem witness_StepRunsTheDecodedCommand :
    (sends four 0x110000FF#32).input = .command 0x110000FF#32 :: [] ∧ decode 0x110000FF#32 = .ok (.lkp 0x0000FF#24) :=
  ⟨rfl, by decide⟩

theorem witness_EveryWordGetsOneResponse :
    (sends four 0xFFFFFFFF#32).input = .command 0xFFFFFFFF#32 :: [] := rfl

theorem witness_IdleStepChangesNothing : State.reset.input = [] := rfl

theorem witness_SecondHostIsRefused :
    ({ State.reset with input := [.secondHostCommand 0#32] } : State).input = .secondHostCommand 0#32 :: [] := rfl

/-- A response without an error, and one with an error of each code. -/
theorem witness_ResponseFieldsAreConsistent :
    (answer four 0x110000FF = some 0x00000001#32 ∧ respErr 0x00000001#32 = false) ∧
    (answer four 0x05000000 = some 0x81000000#32 ∧ respErr 0x81000000#32 = true) ∧
    (answer four 0x13000100 = some 0x82000000#32 ∧ respErr 0x82000000#32 = true) ∧
    (answer four 0x13000004 = some 0x83000000#32 ∧ respErr 0x83000000#32 = true) := by decide +kernel

theorem witness_CommandErrorWritesNothing :
    ∃ t, step (sends four 0x13000004#32) = .next t ∧ t.output = four.output ++ [0x83000000#32] ∧
      respErr 0x83000000#32 = true := ⟨_, rfl, by decide +kernel, by decide⟩

theorem witness_SetbppSelectsTwoOrFour :
    ∀ b ∈ [0#3, 1#3, 3#3, 5#3, 6#3, 7#3], b.toNat ≠ 2 ∧ b.toNat ≠ 4 := by decide

theorem powered_reset : State.reset.PoweredOn := ⟨rfl, rfl, rfl, rfl, rfl⟩

theorem witness_StatAnswersTheStatusFields : State.reset.PoweredOn := powered_reset

theorem witness_SetbppAndClrCommute : (2#3).toNat = 2 ∧ (4#3).toNat = 4 := by decide

/-- INS: a hit at the first and at the last valid entry, also with OVF set. -/
theorem witness_InsHitsAppendsOrDrops_hit :
    four.Inv ∧ (0 : Fin 256).val < four.count.toNat ∧ (3 : Fin 256).val < four.count.toNat ∧
    dropped.Inv ∧ (255 : Fin 256).val < dropped.count.toNat :=
  ⟨inv_four, by decide, by decide, inv_dropped, by decide⟩

/-- INS: an append to an empty palette and at the last free entry. -/
theorem witness_InsHitsAppendsOrDrops_append :
    State.reset.count.toNat < 256 ∧ (∀ i : Fin 256, i.val < State.reset.count.toNat → State.reset.key[i] ≠ 0#24) ∧
    ({ full with count := 255#9 } : State).count.toNat < 256 ∧
      ∀ i : Fin 256, i.val < ({ full with count := 255#9 } : State).count.toNat →
        ({ full with count := 255#9 } : State).key[i] ≠ 0xFFFFFF#24 := by
  refine ⟨by decide, fun _ h => absurd h (Nat.not_lt_zero _), by decide, fun i _ => ?_⟩
  exact dropped_key_ne (by decide) i

/-- INS: a novel triple in a full palette. -/
theorem witness_InsHitsAppendsOrDrops_drop :
    full.count.toNat = 256 ∧ ∀ i : Fin 256, full.key[i] ≠ 0x000100#24 := ⟨rfl, fun i => dropped_key_ne (by decide) i⟩

theorem witness_DroppedTriplesStayAbsent :
    let ws := [0x10000100#32, 0x100000FF#32, 0x05000000#32]
    let s := { full with input := .command (encode (.ins 0x000100#24)) :: ws.map .command }
    s.count.toNat = 256 ∧ (∀ i : Fin 256, s.key[i] ≠ 0x000100#24) ∧ encode .clr ∉ ws ∧
      s.input = .command (encode (.ins 0x000100#24)) :: ws.map .command :=
  ⟨rfl, fun i => dropped_key_ne (by decide) i, by decide +kernel, rfl⟩

/-- The last valid entry, the first invalid one, and entry 255 of a full palette, for RDP and RDPB. -/
theorem witness_RdpAnswersTheEntryColor :
    (3 : Fin 256).val < four.count.toNat ∧ four.count.toNat ≤ (4 : Fin 256).val ∧
    (255 : Fin 256).val < full.count.toNat ∧ State.reset.count.toNat ≤ (0 : Fin 256).val := by decide

theorem witness_RdpbAnswersTheSerializedByte :
    (3 : Fin 256).val < four.count.toNat ∧ four.count.toNat ≤ (4 : Fin 256).val ∧
    (255 : Fin 256).val < full.count.toNat ∧ State.reset.count.toNat ≤ (0 : Fin 256).val :=
  witness_RdpAnswersTheEntryColor

theorem witness_DuplicateColorsKeepTheirOwnEntries :
    State.reset.count = 0#9 ∧ (0xFF0000#24 : Rgb) ≠ 0xF80000#24 ∧ snes 0xFF0000#24 = snes 0xF80000#24 := by decide

theorem witness_PaletteIsFirstSeenOrder :
    let ts := [0xFF0000#24, 0x0000FF#24, 0xFF0000#24]
    let s := { State.reset with input := commandEvents (ts.map .ins) }
    s.count = 0#9 ∧ s.ovf = false ∧ s.input = commandEvents (ts.map .ins) := ⟨rfl, rfl, rfl⟩

theorem witness_PaletteReadsGiveTheSerializedPalette :
    let s := { four with input := commandEvents (readPalette four.count.toNat) }
    s.Inv ∧ s.input = commandEvents (readPalette s.count.toNat) := ⟨⟨inv_four.1, inv_four.2, inv_four.3, inv_four.4⟩, rfl⟩

/-- LKP and LDT: a hit at the first and last valid entry, and an absent triple. -/
theorem witness_LkpAnswersTheIndexOrMiss :
    (four.Inv ∧ (0 : Fin 256).val < four.count.toNat ∧ (3 : Fin 256).val < four.count.toNat) ∧
    ∀ i : Fin 256, i.val < four.count.toNat → four.key[i] ≠ 0x00FF00#24 :=
  ⟨⟨inv_four, by decide, by decide⟩, by decide +kernel⟩

theorem witness_LdtLoadsTheIndexOrZero :
    (four.Inv ∧ (0 : Fin 256).val < four.count.toNat ∧ (3 : Fin 256).val < four.count.toNat) ∧
    ∀ i : Fin 256, i.val < four.count.toNat → four.key[i] ≠ 0x00FF00#24 :=
  witness_LkpAnswersTheIndexOrMiss

theorem no_clear_next {s : State} {w : Word} {rest : List HostEvent} (h : s.input = .command w :: rest)
    (hw : w ≠ encode .clr) : ¬ s.ClearsNext := by
  rintro (⟨r, hr⟩ | ⟨l, r, hr⟩)
  · rw [h] at hr
    simp only [List.cons.injEq, HostEvent.command.injEq] at hr
    exact hw hr.1
  · rw [h] at hr
    simp at hr

/-- An INS that appends, in a state with four entries. -/
theorem witness_FoundTriplesKeepTheirIndex :
    let s := sends four 0x10ABCDEF#32
    s.Inv ∧ ¬ s.ClearsNext ∧ (∃ t, step s = .next t) ∧ s.find 0xFC0000#24 = some 3 :=
  ⟨⟨inv_four.1, inv_four.2, inv_four.3, inv_four.4⟩, no_clear_next rfl (by decide), next_of_sent _ _, by decide +kernel⟩

/-- RDT: the last legal byte at 2 and at 4 bpp, and the first byte that is out of range at 2 bpp. At 4 bpp no byte is. -/
theorem witness_RdtAnswersThePackedByte :
    (15 : Fin 32).val < (if twoBpp.bppsel then 32 else 16) ∧ (31 : Fin 32).val < (if State.reset.bppsel then 32 else 16) ∧
    (if twoBpp.bppsel then 32 else 16) ≤ (16 : Fin 32).val := by decide

theorem witness_TileReadsGiveEncodeTile :
    let s := { tile15 with input := commandEvents (readTile 4) }
    let t := { twoBpp with input := commandEvents (readTile 2) }
    s.input = commandEvents (readTile s.bpp) ∧ t.input = commandEvents (readTile t.bpp) := ⟨rfl, rfl⟩

/-- Loads of all three kinds in the first and the last slots: LDI, an LDT that hits and an LDT that misses. -/
theorem witness_SixtyFourLoadsFillTheTile :
    let loads := ((((Vector.replicate 64 (Instr.ldi 5#8)).set 1 (.ldt 0xFF0000#24)).set 2 (.ldt 0x00FF00#24)).set 62
      (.ldt 0xFC0000#24)).set 63 (.ldt 0x00FF00#24)
    let s := { four with input := commandEvents loads.toList }
    s.tptr = 0#6 ∧ (∀ n : Fin 64, (∃ rgb, loads[n] = .ldt rgb) ∨ ∃ v, loads[n] = .ldi v) ∧
      s.input = commandEvents loads.toList ∧ loads[0] = .ldi 5#8 ∧
      (s.Inv ∧ (0 : Fin 256).val < s.count.toNat ∧ (3 : Fin 256).val < s.count.toNat ∧
        loads[1] = .ldt s.key[0] ∧ loads[62] = .ldt s.key[3]) ∧
      ¬ s.Present 0x00FF00#24 ∧ loads[2] = .ldt 0x00FF00#24 ∧ loads[63] = .ldt 0x00FF00#24 := by
  refine ⟨rfl, fun n => ?_, rfl, by decide +kernel,
    ⟨⟨inv_four.1, inv_four.2, inv_four.3, inv_four.4⟩, by decide, by decide, by decide +kernel, by decide +kernel⟩, ?_,
    by decide +kernel, by decide +kernel⟩
  · simp only [Fin.getElem_fin, Vector.getElem_set, Vector.getElem_replicate]
    split
    · exact .inl ⟨_, rfl⟩
    · split
      · exact .inl ⟨_, rfl⟩
      · split
        · exact .inl ⟨_, rfl⟩
        · split
          · exact .inl ⟨_, rfl⟩
          · exact .inr ⟨_, rfl⟩
  · rintro ⟨i, hi, he⟩
    exact witness_LkpAnswersTheIndexOrMiss.2 i hi he

/-- Reset alone, and reset while a command is in progress. -/
theorem witness_ResetEventGivesTheResetValues :
    ∀ lost ∈ [none, some 0x10FF0000#32],
      ({ dropped with input := [.powerOnReset lost] } : State).input = .powerOnReset lost :: [] := fun _ _ => rfl

theorem witness_EveryStepKeepsTheInvariants :
    (sends dropped 0x01000000#32).Inv ∧ ∃ t, step (sends dropped 0x01000000#32) = .next t :=
  ⟨⟨inv_dropped.1, inv_dropped.2, inv_dropped.3, inv_dropped.4⟩, next_of_sent _ _⟩

theorem witness_ReachableStatesAreGood : Reachable State.reset ∧ Reachable (sends State.reset 0x10FF0000#32) :=
  ⟨.poweredOn powered_reset, .poweredOn ⟨rfl, rfl, rfl, rfl, rfl⟩⟩

/-- COUNT, each clause: a CLR and a reset, an INS that appends the 256th triple, and a drop, which keeps COUNT. -/
theorem witness_CountFollowsClearsAndAppends :
    (sends four (encode .clr)).ClearsNext ∧ ({ four with input := [.powerOnReset none] } : State).ClearsNext ∧
    (let s := sends { full with count := 255#9 } (encode (.ins 0xFFFFFF#24))
     s.InsertsNext 0xFFFFFF#24 ∧ ¬ s.Present 0xFFFFFF#24 ∧ s.count.toNat < 256) ∧
    (let s := sends full (encode (.ins 0x000100#24))
     ¬ s.ClearsNext ∧ (∀ rgb, s.InsertsNext rgb → s.Present rgb ∨ s.count.toNat = 256) ∧ ∃ t, step s = .next t) := by
  refine ⟨.inl ⟨[], rfl⟩, .inr ⟨none, [], rfl⟩, ⟨⟨[], rfl⟩, ?_, by decide⟩, no_clear_next rfl (by decide),
    fun _ _ => .inr rfl, next_of_sent _ _⟩
  rintro ⟨i, hi, he⟩
  exact witness_InsHitsAppendsOrDrops_append.2.2.2 i hi he

/-- OVF, each clause: a CLR, a drop, and an INS of a present triple, which keeps OVF. -/
theorem witness_OvfIsSticky :
    (sends dropped (encode .clr)).ClearsNext ∧
    (let s := sends full (encode (.ins 0x000100#24))
     s.InsertsNext 0x000100#24 ∧ ¬ s.Present 0x000100#24 ∧ s.count.toNat = 256) ∧
    (let s := sends four (encode (.ins 0xFF0000#24))
     ¬ s.ClearsNext ∧ (∀ rgb, s.InsertsNext rgb → s.Present rgb ∨ s.count.toNat < 256) ∧ ∃ t, step s = .next t) := by
  refine ⟨.inl ⟨[], rfl⟩, ⟨⟨[], rfl⟩, ?_, by decide⟩, no_clear_next rfl (by decide), fun _ _ => .inr (by decide), next_of_sent _ _⟩
  rintro ⟨i, _, he⟩
  exact witness_InsHitsAppendsOrDrops_drop.2 i he

theorem witness_OverflowImpliesCapacityWarning : dropped.Inv ∧ dropped.ovf = true := ⟨inv_dropped, rfl⟩

/-- The writers: each element does change by a command of its list. -/
theorem witness_OnlyTheListedCommandsWriteEachElement :
    (after State.reset 0x10FF0000).key[0] ≠ State.reset.key[0] ∧ (after State.reset 0x10FF0000).col[0] ≠ State.reset.col[0] ∧
    (after four 0x01000000).count ≠ four.count ∧ (after State.reset 0x02000002).bppsel ≠ true ∧
    (after State.reset 0x2200000F).tbuf[0] ≠ State.reset.tbuf[0] ∧ (after State.reset 0x2000003F).tptr ≠ 0#6 := by decide +kernel

theorem witness_ReadsWriteNothingAndRepeat :
    ∀ i ∈ [Instr.cvt 0x123456#24, .lkp 0xFF0000#24, .rdp 0#8, .rdpb 511#9, .rdt 31#5, .stat, .nop],
      i.mnemonic ∈ [Mnemonic.cvt, .lkp, .rdp, .rdpb, .rdt, .stat, .nop] := by decide

/-- Two states that differ in the entries at or above COUNT. -/
theorem witness_SameCommandsGiveSameResponses :
    let s := sends State.reset 0x10FF0000#32
    let t := { s with key := Vector.replicate 256 0xFFFFFF#24, col := Vector.replicate 256 0x7FFF#15 }
    s.PoweredOn ∧ t.PoweredOn ∧ Agree s t ∧ s.input = [0x10FF0000#32].map .command ∧
      t.input = [0x10FF0000#32].map .command ∧ s ≠ t ∧ s.bppsel = t.bppsel ∧
      (∃ s', exec .clr s = .next s') ∧ ∃ t', exec .clr t = .next t' :=
  ⟨⟨rfl, rfl, rfl, rfl, rfl⟩, ⟨rfl, rfl, rfl, rfl, rfl⟩,
    ⟨rfl, rfl, rfl, rfl, rfl, fun _ h => absurd h (Nat.not_lt_zero _), fun _ h => absurd h (Nat.not_lt_zero _)⟩, rfl, rfl,
    by decide +kernel, rfl, ⟨_, rfl⟩, ⟨_, rfl⟩⟩

theorem witness_AssembledLinesDecodeToTheirCommand :
    assemble (.command .rdp (some 255)) = .ok 0x130000FF#32 ∧ assemble (.command .nop none) = .ok 0#32 ∧
    assemble (.command .setbpp (some 4)) = .ok 0x02000004#32 ∧ Instr.wellFormed (.setbpp 4#3) = true := by decide

/-- P2's image: one row of five colors, the rest black. -/
def p2Image : Image :=
  { width := 8
    height := 8
    pixels := [0x000000#24, 0xFF0000#24, 0x00FF00#24, 0x0000FF#24, 0xFFFFFF#24] ++ List.replicate 59 0x000000#24 }

/-- The first clause at S10's 10 × 8 image and at an 8 × 7 one; the second at P2's image and at an empty one. -/
theorem witness_HostProcedureCommandCount :
    (10 % 8 ≠ 0 ∨ 8 % 8 ≠ 0) ∧ (8 % 8 ≠ 0 ∨ 7 % 8 ≠ 0) ∧ (p2Image.width % 8 = 0 ∧ p2Image.height % 8 = 0) ∧
    (0 % 8 = 0 ∧ 0 % 8 = 0) := by decide

/-- P2's image at 2 and at 4 bpp, and a state in which the host sends its procedure. -/
theorem witness_HostProcedureGivesTheSourceOutput :
    p2Image.pixels.length = p2Image.width * p2Image.height ∧ p2Image.width % 8 = 0 ∧ p2Image.height % 8 = 0 ∧
    ∀ b ∈ [2, 4], (b = 2 ∨ b = 4) ∧
      ∃ cmds, hostEncode p2Image b (sourcePalette p2Image.pixels).length = some cmds ∧
        ({ State.reset with input := commandEvents cmds } : State).input = commandEvents cmds :=
  ⟨rfl, rfl, rfl, fun _ hb => ⟨by simpa using hb, _, if_pos ⟨rfl, rfl⟩, rfl⟩⟩

end Sys2Proof.Tests
end

/-! PROOFS. The state and its invariants (10_state.md): which events write which element, the invariants INV1 to INV6 of
R31 along every run, and the 64 loads that fill the tile (R28, R29). -/

namespace Sys2Proof

/-! ### The encoder is the decoder's inverse -/

theorem decode_encode (i : Instr) : decode (encode i) = .ok i := by
  refine decode_eq_ok_iff.mpr ⟨i.mnemonic, opcodeField_append _ _, ?_, ?_⟩
  · simpa only [encode, operandField_append] using i.operand_fits
  · simpa only [encode, operandField_append] using i.instr_operand

theorem encode_of_decode {w : Word} {i : Instr} (h : decode w = .ok i) : encode i = w := by
  obtain ⟨m, hopc, hfits, rfl⟩ := decode_eq_ok_iff.mp h
  rw [encode, Mnemonic.instr_mnemonic, Mnemonic.operand_instr m _ hfits, ← hopc]
  exact word_eq_fields w

theorem eq_encode_iff_decode {w : Word} {i : Instr} : w = encode i ↔ decode w = .ok i := by
  constructor
  · rintro rfl
    exact decode_encode i
  · intro h
    exact (encode_of_decode h).symm

end Sys2Proof

namespace Sys2Proof.Machine

/-! ### The next event -/

/-- The step that takes the word of the command `i` off the channel performs `i` (R60, R64). -/
theorem step_of_command {s : State} {i : Instr} {rest : List HostEvent} (h : s.input = .command (encode i) :: rest) :
    step s = exec i (s.withInput rest) := by
  rw [step_of_input h, performEvent, performWord_of_ok (decode_encode i)]

section nextEvent
variable {s : State} {w : Word} {rest : List HostEvent} {rgb : Rgb}

theorem clearsNext_iff_decode (h : s.input = .command w :: rest) : s.ClearsNext ↔ decode w = .ok .clr := by
  simp [State.ClearsNext, h, eq_encode_iff_decode]

theorem insertsNext_iff_decode (h : s.input = .command w :: rest) : s.InsertsNext rgb ↔ decode w = .ok (.ins rgb) := by
  simp [State.InsertsNext, h, eq_encode_iff_decode]

theorem not_clearsNext_of_idle (h : s.input = []) : ¬ s.ClearsNext := by
  simp [State.ClearsNext, h]

theorem not_insertsNext_of_idle (h : s.input = []) : ¬ s.InsertsNext rgb := by
  simp [State.InsertsNext, h]

theorem clearsNext_of_powerOnReset {lost : Option Word} (h : s.input = .powerOnReset lost :: rest) : s.ClearsNext :=
  .inr ⟨lost, rest, h⟩

/-- An INS empties no palette. -/
theorem State.InsertsNext.not_clearsNext (h : s.InsertsNext rgb) : ¬ s.ClearsNext := by
  obtain ⟨rest, hin⟩ := h
  rw [clearsNext_iff_decode hin, decode_encode]
  simp

/-- The next event inserts one triple only. -/
theorem State.InsertsNext.unique {rgb' : Rgb} (h : s.InsertsNext rgb) (h' : s.InsertsNext rgb') : rgb' = rgb := by
  obtain ⟨rest, hin⟩ := h
  rw [insertsNext_iff_decode hin, decode_encode] at h'
  simpa using h'.symm

end nextEvent

/-! ### What a command and a step do to the palette -/

/-- The palette elements KEY, COL, COUNT and OVF are the same in two states. -/
structure SamePalette (s t : State) : Prop where
  key_eq : t.key = s.key
  col_eq : t.col = s.col
  count_eq : t.count = s.count
  ovf_eq : t.ovf = s.ovf

/-- What a command does to the palette, said once: CLR empties it, an INS of an absent triple appends or sets OVF, and
every other command keeps it. -/
theorem Effect.palette_cases {s t : State} {i : Instr} (h : Effect s i t) :
    (i = .clr ∧ SamePalette s.clear t) ∨
    (∃ rgb, i = .ins rgb ∧ ¬ s.Present rgb ∧ s.count.toNat < 256 ∧ SamePalette (s.appendEntry rgb) t) ∨
    (∃ rgb, i = .ins rgb ∧ ¬ s.Present rgb ∧ 256 ≤ s.count.toNat ∧ SamePalette s.markOverflow t) ∨
    (i ≠ .clr ∧ (∀ rgb, i = .ins rgb → s.Present rgb) ∧ SamePalette s t) := by
  cases h with
  | clr => exact .inl ⟨rfl, rfl, rfl, rfl, rfl⟩
  | insNew hn hc => exact .inr (.inl ⟨_, rfl, hn, hc, rfl, rfl, rfl, rfl⟩)
  | insDrop hn hc => exact .inr (.inr (.inl ⟨_, rfl, hn, hc, rfl, rfl, rfl, rfl⟩))
  | insHit hf =>
    refine .inr (.inr (.inr ⟨by simp, ?_, rfl, rfl, rfl, rfl⟩))
    rintro rgb ⟨⟩
    exact present_iff_find.mpr ⟨_, hf⟩
  | _ => exact .inr (.inr (.inr ⟨by simp, by simp, rfl, rfl, rfl, rfl⟩))

/-- The ways a step from `s` to `t` can treat the palette, each with the event that does so. -/
inductive PaletteStep (s t : State) : Prop where
  | cleared (hnext : s.ClearsNext) (hcount : t.count = 0#9) (hovf : t.ovf = false)
  | appended {rgb : Rgb} (hnext : s.InsertsNext rgb) (habsent : ¬ s.Present rgb) (hroom : s.count.toNat < 256)
      (hsame : SamePalette (s.appendEntry rgb) t)
  | dropped {rgb : Rgb} (hnext : s.InsertsNext rgb) (habsent : ¬ s.Present rgb) (hfull : 256 ≤ s.count.toNat)
      (hsame : SamePalette s.markOverflow t)
  | kept (hclear : ¬ s.ClearsNext) (hins : ∀ rgb, s.InsertsNext rgb → s.Present rgb) (hsame : SamePalette s t)

theorem step_palette {s t : State} (h : step s = .next t) : PaletteStep s t := by
  rcases step_next_cases h with ⟨hin, rfl⟩ | ⟨w, rest, i, hin, hd, he⟩ | ⟨w, rest, e, hin, hd, rfl⟩ |
    ⟨lost, rest, hin, rfl⟩
  · exact .kept (not_clearsNext_of_idle hin) (fun _ hn => absurd hn (not_insertsNext_of_idle hin)) ⟨rfl, rfl, rfl, rfl⟩
  · rcases he.palette_cases with ⟨rfl, hs⟩ | ⟨rgb, rfl, hn, hc, hs⟩ | ⟨rgb, rfl, hn, hc, hs⟩ | ⟨hclr, hins, hs⟩
    · exact .cleared ((clearsNext_iff_decode hin).mpr hd) hs.count_eq hs.ovf_eq
    · exact .appended ((insertsNext_iff_decode hin).mpr hd) hn hc ⟨hs.key_eq, hs.col_eq, hs.count_eq, hs.ovf_eq⟩
    · exact .dropped ((insertsNext_iff_decode hin).mpr hd) hn hc ⟨hs.key_eq, hs.col_eq, hs.count_eq, hs.ovf_eq⟩
    · refine .kept ?_ ?_ ⟨hs.key_eq, hs.col_eq, hs.count_eq, hs.ovf_eq⟩
      · rw [clearsNext_iff_decode hin, hd]
        simpa using hclr
      · intro rgb hn
        rw [insertsNext_iff_decode hin, hd] at hn
        exact hins rgb (by simpa using hn)
  · refine .kept ?_ ?_ ⟨rfl, rfl, rfl, rfl⟩
    · simp [clearsNext_iff_decode hin, hd]
    · simp [insertsNext_iff_decode hin, hd]
  · exact .cleared (clearsNext_of_powerOnReset hin) rfl rfl

/-! ### The invariants (R31) -/

/-- The invariants speak of the palette only. -/
theorem State.Inv.of_samePalette {s t : State} (hs : s.Inv) (h : SamePalette s t) : t.Inv := by
  obtain ⟨hk, hl, hc, ho⟩ := h
  constructor
  · simpa only [hc] using hs.count_le
  · simpa only [hc, hk] using hs.keys_distinct
  · simpa only [hc, hk, hl] using hs.colors_match
  · simpa only [hc, ho] using hs.ovf_full

/-- An empty palette without overflow has the invariants, whatever KEY and COL hold. -/
theorem inv_of_empty {s : State} (hc : s.count = 0#9) (ho : s.ovf = false) : s.Inv := by
  constructor <;> simp [hc, ho]

/-- Setting OVF in a full palette keeps the invariants (R102). -/
theorem markOverflow_inv {s : State} (hs : s.Inv) (hfull : 256 ≤ s.count.toNat) : s.markOverflow.Inv where
  count_le := hs.count_le
  keys_distinct := hs.keys_distinct
  colors_match := hs.colors_match
  ovf_full _ := Nat.le_antisymm hs.count_le hfull

theorem PaletteStep.keeps_inv {s t : State} (h : PaletteStep s t) (hs : s.Inv) : t.Inv := by
  cases h with
  | cleared _ hcount hovf => exact inv_of_empty hcount hovf
  | appended _ habsent hroom hsame => exact (appendEntry_inv hs hroom habsent).of_samePalette hsame
  | dropped _ _ hfull hsame => exact (markOverflow_inv hs hfull).of_samePalette hsame
  | kept _ _ hsame => exact hs.of_samePalette hsame

/-- Settles O44, by the four ways a step can treat the palette. -/
theorem everyStepKeepsTheInvariants : Obligations.EveryStepKeepsTheInvariants := by
  intro s t hs h
  exact (step_palette h).keeps_inv hs

/-- Settles O45, by induction on the run. -/
theorem reachableStatesAreGood : Obligations.ReachableStatesAreGood := by
  intro s h
  induction h with
  | poweredOn h => exact inv_of_empty h.count_eq h.ovf_eq
  | step _ hstep ih => exact everyStepKeepsTheInvariants _ _ ih hstep

/-- Settles O43: the palette is empty at reset. -/
theorem resetStateIsGood : Obligations.ResetStateIsGood := inv_of_empty rfl rfl

/-- Settles O48: OVF = 1 means 256 entries (INV4), and no format's capacity is above 16. -/
theorem overflowImpliesCapacityWarning : Obligations.OverflowImpliesCapacityWarning := by
  intro s hs hovf
  have hfull := hs.ovf_full hovf
  have hcap := capacity_le_sixteen s.bpp
  simp only [State.capw, decide_eq_true_eq]
  omega

/-- Settles O40: State.reset holds R34's values, and a COUNT of 0 exceeds no capacity. -/
theorem resetStateHasTheSpecValues : Obligations.ResetStateHasTheSpecValues := by
  refine ⟨rfl, rfl, rfl, rfl, fun n => ?_, rfl⟩
  exact Vector.getElem_replicate n.isLt

/-! ### COUNT and OVF, step by step (R23, R25) -/

/-- Settles O46, by the four ways a step can treat the palette. -/
theorem countFollowsClearsAndAppends : Obligations.CountFollowsClearsAndAppends := by
  intro s t hle h
  cases step_palette h with
  | cleared hnext hcount _ =>
    exact ⟨by simp [hcount], fun _ => hcount, fun rgb hi => absurd hnext hi.not_clearsNext, fun hc => absurd hnext hc⟩
  | appended hnext habsent hroom hsame =>
    have hcount : t.count.toNat = s.count.toNat + 1 := by
      rw [hsame.count_eq, State.appendEntry_count, count_add_one hroom]
    refine ⟨by omega, fun hc => absurd hc hnext.not_clearsNext, fun _ _ _ _ => hcount, fun _ hkeep => ?_⟩
    rcases hkeep _ hnext with hp | hfull
    · exact absurd hp habsent
    · omega
  | dropped hnext _ hfull hsame =>
    have hcount : t.count = s.count := hsame.count_eq
    exact ⟨by rwa [hcount], fun hc => absurd hc hnext.not_clearsNext, fun _ _ _ _ => by omega, fun _ _ => hcount⟩
  | kept hclear hins hsame =>
    have hcount : t.count = s.count := hsame.count_eq
    exact ⟨by rwa [hcount], fun hc => absurd hc hclear, fun rgb hi hn => absurd (hins rgb hi) hn, fun _ _ => hcount⟩

/-- Settles O47, by the four ways a step can treat the palette. -/
theorem ovfIsSticky : Obligations.OvfIsSticky := by
  intro s t _ h
  cases step_palette h with
  | cleared hnext _ hovf =>
    exact ⟨fun _ => hovf, fun rgb hi => absurd hnext hi.not_clearsNext, fun hc => absurd hnext hc⟩
  | appended hnext _ hroom hsame =>
    have hovf : t.ovf = s.ovf := hsame.ovf_eq
    exact ⟨fun hc => absurd hc hnext.not_clearsNext, fun _ _ _ _ => by omega, fun _ _ => hovf⟩
  | dropped hnext habsent hfull hsame =>
    have hovf : t.ovf = true := hsame.ovf_eq
    refine ⟨fun hc => absurd hc hnext.not_clearsNext, fun _ _ _ _ => hovf, fun _ hkeep => ?_⟩
    rcases hkeep _ hnext with hp | hroom
    · exact absurd hp habsent
    · omega
  | kept hclear hins hsame =>
    have hovf : t.ovf = s.ovf := hsame.ovf_eq
    exact ⟨fun hc => absurd hc hclear, fun rgb hi hn => absurd (hins rgb hi) hn, fun _ _ => hovf⟩

/-! ### The writers of each element (R40) -/

section writers
variable {s t : State} {i : Instr}

theorem Effect.key_col_writers (h : Effect s i t) (hw : t.key ≠ s.key ∨ t.col ≠ s.col) : i.mnemonic = .ins := by
  rcases h.palette_cases with ⟨-, hs⟩ | ⟨rgb, rfl, -⟩ | ⟨rgb, rfl, -⟩ | ⟨-, -, hs⟩
  · simp [hs.key_eq, hs.col_eq] at hw
  · rfl
  · rfl
  · simp [hs.key_eq, hs.col_eq] at hw

theorem Effect.count_ovf_writers (h : Effect s i t) (hw : t.count ≠ s.count ∨ t.ovf ≠ s.ovf) :
    i.mnemonic = .ins ∨ i.mnemonic = .clr := by
  rcases h.palette_cases with ⟨rfl, -⟩ | ⟨rgb, rfl, -⟩ | ⟨rgb, rfl, -⟩ | ⟨-, -, hs⟩
  · exact .inr rfl
  · exact .inl rfl
  · exact .inl rfl
  · simp [hs.count_eq, hs.ovf_eq] at hw

theorem Effect.bppsel_writers (h : Effect s i t) (hw : t.bppsel ≠ s.bppsel) : i.mnemonic = .setbpp := by
  cases h with
  | setbpp | setbppBad => rfl
  | _ => exact absurd rfl hw

theorem Effect.tbuf_writers (h : Effect s i t) (hw : t.tbuf ≠ s.tbuf) :
    i.mnemonic = .ldt ∨ i.mnemonic = .ldi ∨ i.mnemonic = .clr := by
  cases h with
  | ldtHit | ldtMiss => exact .inl rfl
  | ldi => exact .inr (.inl rfl)
  | clr => exact .inr (.inr rfl)
  | _ => exact absurd rfl hw

theorem Effect.tptr_writers (h : Effect s i t) (hw : t.tptr ≠ s.tptr) :
    i.mnemonic = .tsel ∨ i.mnemonic = .ldt ∨ i.mnemonic = .ldi ∨ i.mnemonic = .clr := by
  cases h with
  | tsel => exact .inl rfl
  | ldtHit | ldtMiss => exact .inr (.inl rfl)
  | ldi => exact .inr (.inr (.inl rfl))
  | clr => exact .inr (.inr (.inr rfl))
  | _ => exact absurd rfl hw

end writers

/-- Settles O49, one lemma for each element. -/
theorem onlyTheListedCommandsWriteEachElement : Obligations.OnlyTheListedCommandsWriteEachElement := by
  intro i s
  obtain ⟨t, hexec, h⟩ := exec_effect i s
  obtain ⟨hinput, hdraws, -⟩ := h.channel
  exact ⟨t, hexec, h.key_col_writers, h.count_ovf_writers, h.bppsel_writers, h.tbuf_writers, h.tptr_writers, hinput,
    hdraws⟩

/-! ### Loading several slots (R29) -/

/-- Several loads in a row, from slot TPTR on. -/
def State.loadSlots (s : State) (vs : List Byte) : State := vs.foldl State.loadSlot s

@[simp] theorem State.loadSlots_nil (s : State) : s.loadSlots [] = s := rfl

@[simp] theorem State.loadSlots_cons (s : State) (v : Byte) (vs : List Byte) :
    s.loadSlots (v :: vs) = (s.loadSlot v).loadSlots vs := rfl

theorem State.loadSlots_concat (s : State) (vs : List Byte) (v : Byte) :
    s.loadSlots (vs ++ [v]) = (s.loadSlots vs).loadSlot v := by
  simp [State.loadSlots]

/-- Loads write TBUF and TPTR only. -/
theorem State.loadSlots_frame (s : State) (vs : List Byte) :
    s.loadSlots vs = { s with tbuf := (s.loadSlots vs).tbuf, tptr := (s.loadSlots vs).tptr } := by
  induction vs generalizing s with
  | nil => rfl
  | cons v vs ih => exact ih (s.loadSlot v)

theorem State.loadSlots_tptr (s : State) (vs : List Byte) :
    (s.loadSlots vs).tptr = s.tptr + BitVec.ofNat 6 vs.length := by
  induction vs generalizing s with
  | nil => simp
  | cons v vs ih =>
    rw [State.loadSlots_cons, ih, State.loadSlot_tptr, List.length_cons, BitVec.add_assoc, Nat.add_comm,
      BitVec.ofNat_add]

/-- From slot 0, at most 64 loads fill the slots in order and leave the later ones alone. -/
theorem State.loadSlots_tbuf_getElem {s : State} (hp : s.tptr = 0#6) (vs : List Byte) (hlen : vs.length ≤ 64) (n : Nat)
    (hn : n < 64) : (s.loadSlots vs).tbuf[n] = vs[n]?.getD s.tbuf[n] := by
  induction vs using List.reverseRecOn with
  | nil => rfl
  | append_singleton vs v ih =>
    simp only [List.length_append, List.length_singleton] at hlen
    have hslot : (s.loadSlots vs).tptr.toNat = vs.length := by
      rw [State.loadSlots_tptr, hp, BitVec.zero_add, BitVec.toNat_ofNat]
      omega
    simp only [State.loadSlots_concat, State.loadSlot_tbuf, Vector.getElem_set, hslot]
    by_cases h : vs.length = n
    · simp [h]
    · rw [if_neg h, ih (by omega)]
      rcases Nat.lt_or_gt_of_ne h with hgt | hlt
      · rw [List.getElem?_eq_none (by omega), List.getElem?_eq_none (by simp; omega)]
      · rw [List.getElem?_append_left hlt]

/-- 64 loads from slot 0 replace the whole tile and bring TPTR back to 0. -/
theorem State.loadSlots_tile {s : State} (hp : s.tptr = 0#6) (vs : Vector Byte 64) :
    s.loadSlots vs.toList = { s with tbuf := vs } := by
  have htptr : (s.loadSlots vs.toList).tptr = s.tptr := by
    rw [State.loadSlots_tptr, Vector.length_toList, hp]
    rfl
  have htbuf : (s.loadSlots vs.toList).tbuf = vs := by
    ext n hn
    rw [State.loadSlots_tbuf_getElem hp _ (by simp) n hn]
    simp [hn]
  rw [State.loadSlots_frame, htptr, htbuf]

/-! ### The load commands LDT and LDI (R122, R136) -/

/-- The two commands that load a slot. -/
def IsLoad (i : Instr) : Prop := (∃ rgb, i = .ldt rgb) ∨ ∃ v, i = .ldi v

/-- The value a load command writes and the response it returns; no other command has one. -/
def State.loadResult (s : State) : Instr → Byte × Word
  | .ldt rgb =>
    match s.find rgb with
    | some i => (BitVec.ofNat 8 i, okWord noFlags ((BitVec.ofNat 8 i).setWidth 24))
    | none => (0#8, okWord missFlag 0#24)
  | .ldi v => (v, okWord noFlags (v.setWidth 24))
  | _ => (0#8, 0#32)

theorem loadResult_ldi (s : State) (v : Byte) : s.loadResult (.ldi v) = (v, okWord noFlags (v.setWidth 24)) := rfl

theorem loadResult_ldt_of_find {s : State} {rgb : Rgb} {i : Nat} (h : s.find rgb = some i) :
    s.loadResult (.ldt rgb) = (BitVec.ofNat 8 i, okWord noFlags ((BitVec.ofNat 8 i).setWidth 24)) := by
  simp only [State.loadResult, h]

theorem loadResult_ldt_of_absent {s : State} {rgb : Rgb} (h : ¬ s.Present rgb) :
    s.loadResult (.ldt rgb) = (0#8, okWord missFlag 0#24) := by
  simp only [State.loadResult, find_eq_none_iff.mpr h]

/-- A load's result depends on KEY and COUNT only. -/
theorem loadResult_congr {s t : State} (hk : s.key = t.key) (hc : s.count = t.count) : s.loadResult = t.loadResult := by
  funext i
  simp only [State.loadResult, find_congr hk hc]

/-- A response without flags whose data is a byte is that byte. -/
theorem okWord_noFlags_byte (v : Byte) : okWord noFlags (v.setWidth 24) = v.setWidth 32 := by
  rw [okWord_noFlags, BitVec.setWidth_setWidth (by omega)]

/-- A palette index is a byte. -/
theorem setWidth_index {i : Nat} (h : i < 256) : (BitVec.ofNat 8 i).setWidth 32 = BitVec.ofNat 32 i := by
  apply BitVec.eq_of_toNat_eq
  simp only [BitVec.toNat_setWidth, BitVec.toNat_ofNat]
  omega

/-- The same block with other events to come and other responses given. -/
def State.withChannel (s : State) (l : List HostEvent) (o : List Word) : State := { s with input := l, output := o }

/-- The channel has no part in loading slots. -/
theorem State.withChannel_loadSlots (s : State) (l : List HostEvent) (o : List Word) (vs : List Byte) :
    (s.withChannel l o).loadSlots vs = (s.loadSlots vs).withChannel l o := by
  induction vs generalizing s with
  | nil => rfl
  | cons v vs ih => exact ih (s.loadSlot v)

theorem exec_load {i : Instr} (h : IsLoad i) (s : State) :
    exec i s = .next ((s.loadSlot (s.loadResult i).1).withChannel s.input (s.output ++ [(s.loadResult i).2])) := by
  obtain ⟨t, ht, he⟩ := exec_effect i s
  rw [ht]
  rcases h with ⟨rgb, rfl⟩ | ⟨v, rfl⟩
  · cases he with
    | ldtHit hf =>
      rw [loadResult_ldt_of_find hf]
      rfl
    | ldtMiss hn =>
      rw [loadResult_ldt_of_absent hn]
      rfl
  · cases he
    rfl

/-- Load commands in a row: their values go into the slots from TPTR on, their responses are returned in order. -/
theorem run_loads {s : State} {loads : List Instr} {rest : List HostEvent} (hl : ∀ i ∈ loads, IsLoad i)
    (hin : s.input = commandEvents loads ++ rest) :
    run loads.length s = .next ((s.loadSlots (loads.map fun i => (s.loadResult i).1)).withChannel rest
      (s.output ++ loads.map fun i => (s.loadResult i).2)) := by
  induction loads generalizing s with
  | nil =>
    have hin' : s.input = rest := hin
    simp [run_zero, State.withChannel, ← hin']
  | cons i loads ih =>
    obtain ⟨hi, hl'⟩ := List.forall_mem_cons.mp hl
    have hstep : step s = .next ((s.loadSlot (s.loadResult i).1).withChannel (commandEvents loads ++ rest)
        (s.output ++ [(s.loadResult i).2])) :=
      (step_of_command hin).trans (exec_load hi _)
    have hres (l : List HostEvent) (o : List Word) :
        ((s.loadSlot (s.loadResult i).1).withChannel l o).loadResult = s.loadResult := loadResult_congr rfl rfl
    rw [List.length_cons, run_succ hstep, ih hl' rfl, State.withChannel_loadSlots, hres]
    simp [State.withChannel]

/-- Settles O39: 64 load results fill the tile. -/
theorem sixtyFourLoadsFillTheTile : Obligations.SixtyFourLoadsFillTheTile := by
  intro s loads hp hl hin
  refine ⟨loads.map fun i => (s.loadResult i).1, loads.map fun i => (s.loadResult i).2, ?_, fun n => ?_⟩
  · have hall : ∀ i ∈ loads.toList, IsLoad i := by
      intro i hi
      obtain ⟨n, hn, rfl⟩ := List.mem_iff_getElem.mp hi
      exact hl ⟨n, by simpa using hn⟩
    have hrun := run_loads (rest := []) hall (by simpa using hin)
    rw [Vector.length_toList, ← Vector.toList_map, State.loadSlots_tile hp] at hrun
    rw [hrun, Vector.toList_map]
    rfl
  · simp only [Fin.getElem_fin, Vector.getElem_map]
    refine ⟨fun v hv => ?_, fun hs i hi hk => ?_, fun rgb hn hk => ?_⟩
    · rw [hv, loadResult_ldi]
      exact ⟨rfl, okWord_noFlags_byte v⟩
    · rw [hk, loadResult_ldt_of_find (find_key hs i.isLt hi), okWord_noFlags_byte, setWidth_index i.isLt]
      exact ⟨rfl, rfl⟩
    · rw [hk, loadResult_ldt_of_absent hn]
      exact ⟨rfl, okWord_missFlag⟩

end Sys2Proof.Machine

/-! PROOFS. The channel and the order of commands (20_memory.md): a second host is refused (R51), the reading commands
write nothing (R48), and the block is deterministic up to the palette entries that no rule reads (R53). -/

namespace Sys2Proof.Machine

/-- Settles O12: the step performs the event it takes, and a second host's command is refused (log entry 6). -/
theorem secondHostIsRefused : Obligations.SecondHostIsRefused := by
  intro s w rest h
  rw [step_of_input h, performEvent]

/-! ### An effect determines the command's outcome -/

/-- The converse of `effect_of_exec`: a state that is an effect of the command is the one it ends in. -/
theorem Effect.exec_eq {s t : State} {i : Instr} (h : Effect s i t) : exec i s = .next t := by
  cases h with
  | nop | clr | stat | cvt | tsel | ldi => rfl
  | setbpp h | setbppBad h => simp only [exec, execSetbpp, h]
  | insHit h => simp only [exec, execIns, h]
  | insNew h hc => simp only [exec, execIns, find_eq_none_iff.mpr h, if_pos hc]
  | insDrop h hc => simp only [exec, execIns, find_eq_none_iff.mpr h, if_neg (Nat.not_lt.mpr hc)]
  | lkpHit h => simp only [exec, execLkp, lookup_of_find h]
  | lkpMiss h => simp only [exec, execLkp, lookup_of_absent h]
  | rdp h => simp only [exec, execRdp, if_neg (Nat.not_le.mpr h)]
  | rdpBad h => simp only [exec, execRdp, if_pos h]
  | rdpb h => simp only [exec, execRdpb, if_neg (Nat.not_le.mpr h)]
  | rdpbBad h => simp only [exec, execRdpb, if_pos h]
  | ldtHit h => simp only [exec, execLdt, lookup_of_find h]
  | ldtMiss h => simp only [exec, execLdt, lookup_of_absent h]
  | rdt h => simp only [exec, execRdt, if_neg (Nat.not_le.mpr h)]
  | rdtBad h => simp only [exec, execRdt, if_pos h]

/-! ### What agreeing states show alike -/

section reads
variable {s t : State}

theorem Agree.validKeys_eq (h : Agree s t) : s.validKeys = t.validKeys := by
  apply List.ext_getElem
  · rw [validKeys_length, validKeys_length, h.count_eq]
  · intro i hs ht
    have hlen := validKeys_length s
    rw [validKeys_getElem, validKeys_getElem]
    exact h.key_eq ⟨i, by omega⟩ (by show i < _; omega)

theorem Agree.find_eq (h : Agree s t) (rgb : Rgb) : s.find rgb = t.find rgb := by
  rw [State.find, State.find, h.validKeys_eq]

theorem Agree.present_iff (h : Agree s t) {rgb : Rgb} : s.Present rgb ↔ t.Present rgb := by
  rw [← mem_validKeys_iff, ← mem_validKeys_iff, h.validKeys_eq]

theorem Agree.colorField_eq (h : Agree s t) {i : BitVec 8} (hi : i.toNat < s.count.toNat) :
    s.colorField i = t.colorField i :=
  congrArg (BitVec.setWidth 16) (h.col_eq ⟨i.toNat, i.isLt⟩ hi)

theorem Agree.serializedByte_eq (h : Agree s t) {j : BitVec 9} (hj : j.toNat < 2 * s.count.toNat) :
    s.serializedByte j = t.serializedByte j := by
  have hentry : (entryOfByte j).toNat < s.count.toNat := by
    rw [entryOfByte_toNat]
    omega
  rw [State.serializedByte, State.serializedByte, h.colorField_eq hentry]

theorem Agree.bpp_eq (h : Agree s t) : s.bpp = t.bpp := by
  rw [State.bpp, State.bpp, h.bppsel_eq]

theorem Agree.statusWord_eq (h : Agree s t) : s.statusWord = t.statusWord := by
  simp only [State.statusWord, State.capw, h.bpp_eq, h.count_eq, h.ovf_eq, h.bppsel_eq, h.tptr_eq]

end reads

/-! ### The operations that keep agreement -/

theorem Agree.refl (s : State) : Agree s s :=
  ⟨rfl, rfl, rfl, rfl, rfl, fun _ _ => rfl, fun _ _ => rfl⟩

/-- States with an empty palette agree whatever KEY and COL hold. -/
theorem agree_of_empty {s t : State} (hs : s.count = 0#9) (ht : t.count = 0#9) (hovf : s.ovf = t.ovf)
    (hbppsel : s.bppsel = t.bppsel) (htptr : s.tptr = t.tptr) (htbuf : s.tbuf = t.tbuf) : Agree s t where
  count_eq := hs.trans ht.symm
  ovf_eq := hovf
  bppsel_eq := hbppsel
  tptr_eq := htptr
  tbuf_eq := htbuf
  key_eq i hi := by simp [hs] at hi
  col_eq i hi := by simp [hs] at hi

/-- Right after power-on reset any two states agree (R170). -/
theorem State.PoweredOn.agree {s t : State} (hs : s.PoweredOn) (ht : t.PoweredOn) : Agree s t :=
  agree_of_empty hs.count_eq ht.count_eq (hs.ovf_eq.trans ht.ovf_eq.symm) (hs.bppsel_eq.trans ht.bppsel_eq.symm)
    (hs.tptr_eq.trans ht.tptr_eq.symm) (hs.tbuf_eq.trans ht.tbuf_eq.symm)

/-- CLR keeps nothing but BPPSEL (R171). -/
theorem agree_clear {s t : State} (h : s.bppsel = t.bppsel) : Agree s.clear t.clear :=
  agree_of_empty rfl rfl rfl h rfl rfl

section operations
variable {s t : State} (h : Agree s t)
include h

/-- Agreement says nothing of the channel. -/
theorem Agree.withChannel (l l' : List HostEvent) (o o' : List Word) :
    Agree (s.withChannel l o) (t.withChannel l' o') :=
  { h with }

theorem Agree.setBppsel (b : Bool) : Agree (s.setBppsel b) (t.setBppsel b) :=
  { h with bppsel_eq := rfl }

theorem Agree.markOverflow : Agree s.markOverflow t.markOverflow :=
  { h with ovf_eq := rfl }

theorem Agree.setTptr (slot : BitVec 6) : Agree (s.setTptr slot) (t.setTptr slot) :=
  { h with tptr_eq := rfl }

theorem Agree.loadSlot (v : Byte) : Agree (s.loadSlot v) (t.loadSlot v) :=
  { h with
    tptr_eq := by simp only [State.loadSlot_tptr, h.tptr_eq]
    tbuf_eq := by simp only [State.loadSlot_tbuf, h.tptr_eq, h.tbuf_eq] }

/-- The entry that becomes valid is written, so nothing unspecified comes below COUNT (R101). -/
theorem Agree.appendEntry (rgb : Rgb) (hroom : s.count.toNat < 256) :
    Agree (s.appendEntry rgb) (t.appendEntry rgb) where
  count_eq := by simp only [State.appendEntry_count, h.count_eq]
  ovf_eq := h.ovf_eq
  bppsel_eq := h.bppsel_eq
  tptr_eq := h.tptr_eq
  tbuf_eq := h.tbuf_eq
  key_eq i hi := by
    rw [State.appendEntry_count, count_add_one hroom] at hi
    simp only [Fin.getElem_fin, appendEntry_key_getElem, ← h.count_eq]
    split
    · rfl
    · exact h.key_eq i (by omega)
  col_eq i hi := by
    rw [State.appendEntry_count, count_add_one hroom] at hi
    simp only [Fin.getElem_fin, appendEntry_col_getElem, ← h.count_eq]
    split
    · rfl
    · exact h.col_eq i (by omega)

end operations

/-! ### The same commands, the same responses (R53) -/

/-- The block has gone on from `s` to `s'` and from `t` to `t'` with the same responses, and `s'` and `t'` agree. -/
def AgreeAfter (s t s' t' : State) : Prop :=
  Agree s' t' ∧ ∃ rs, s'.output = s.output ++ rs ∧ t'.output = t.output ++ rs

theorem AgreeAfter.trans {s t s' t' s'' t'' : State} (h : AgreeAfter s t s' t') (h' : AgreeAfter s' t' s'' t'') :
    AgreeAfter s t s'' t'' := by
  obtain ⟨-, rs, hs, ht⟩ := h
  obtain ⟨hagree, rs', hs', ht'⟩ := h'
  refine ⟨hagree, rs ++ rs', ?_, ?_⟩
  · rw [hs', hs, List.append_assoc]
  · rw [ht', ht, List.append_assoc]

section answers
variable {s t : State} (h : Agree s t)
include h

theorem Agree.respond (f : RespFlags) {d d' : Data} (hd : d = d') :
    AgreeAfter s t (s.respond f d) (t.respond f d') := by
  subst hd
  exact ⟨h.withChannel _ _ _ _, [okWord f d], rfl, rfl⟩

theorem Agree.raise (e : CmdError) : AgreeAfter s t (s.raise e) (t.raise e) :=
  ⟨h.withChannel _ _ _ _, [errorWord e], rfl, rfl⟩

/-- A command reads nothing in which agreeing states differ: its effect at one is its effect at the other. -/
theorem Agree.effect {i : Instr} {s' : State} (he : Effect s i s') :
    ∃ t', Effect t i t' ∧ AgreeAfter s t s' t' := by
  cases he with
  | nop => exact ⟨_, .nop, h.respond _ rfl⟩
  | clr => exact ⟨_, .clr, (agree_clear h.bppsel_eq).respond _ rfl⟩
  | setbpp hb => exact ⟨_, .setbpp hb, (h.setBppsel _).respond _ rfl⟩
  | setbppBad hb => exact ⟨_, .setbppBad hb, h.raise _⟩
  | stat => exact ⟨_, .stat, h.respond _ h.statusWord_eq⟩
  | insHit hf => exact ⟨_, .insHit (h.find_eq _ ▸ hf), h.respond _ rfl⟩
  | insNew hn hc =>
    exact ⟨_, .insNew (mt h.present_iff.mpr hn) (h.count_eq ▸ hc),
      (h.appendEntry _ hc).respond _ (congrArg _ h.count_eq)⟩
  | insDrop hn hc =>
    exact ⟨_, .insDrop (mt h.present_iff.mpr hn) (h.count_eq ▸ hc), h.markOverflow.respond _ rfl⟩
  | lkpHit hf => exact ⟨_, .lkpHit (h.find_eq _ ▸ hf), h.respond _ rfl⟩
  | lkpMiss hn => exact ⟨_, .lkpMiss (mt h.present_iff.mpr hn), h.respond _ rfl⟩
  | cvt => exact ⟨_, .cvt, h.respond _ rfl⟩
  | rdp hi => exact ⟨_, .rdp (h.count_eq ▸ hi), h.respond _ (congrArg _ (h.colorField_eq hi))⟩
  | rdpBad hi => exact ⟨_, .rdpBad (h.count_eq ▸ hi), h.raise _⟩
  | rdpb hj => exact ⟨_, .rdpb (h.count_eq ▸ hj), h.respond _ (congrArg _ (h.serializedByte_eq hj))⟩
  | rdpbBad hj => exact ⟨_, .rdpbBad (h.count_eq ▸ hj), h.raise _⟩
  | tsel => exact ⟨_, .tsel, (h.setTptr _).respond _ rfl⟩
  | ldtHit hf => exact ⟨_, .ldtHit (h.find_eq _ ▸ hf), (h.loadSlot _).respond _ rfl⟩
  | ldtMiss hn => exact ⟨_, .ldtMiss (mt h.present_iff.mpr hn), (h.loadSlot _).respond _ rfl⟩
  | ldi => exact ⟨_, .ldi, (h.loadSlot _).respond _ rfl⟩
  | rdt hk => exact ⟨_, .rdt (h.bpp_eq ▸ hk), h.respond _ (congrArg _ (packByte_congr h.tbuf_eq _))⟩
  | rdtBad hk => exact ⟨_, .rdtBad (h.bpp_eq ▸ hk), h.raise _⟩

/-- Agreeing states perform a command word alike, legal or not, and take nothing more off the channel. -/
theorem performWord_agree (w : Word) :
    ∃ s' t', performWord w s = .next s' ∧ performWord w t = .next t' ∧ s'.input = s.input ∧ t'.input = t.input ∧
      AgreeAfter s t s' t' := by
  cases hd : decode w with
  | error e =>
    exact ⟨_, _, performWord_of_error hd s, performWord_of_error hd t, rfl, rfl, h.raise e⟩
  | ok i =>
    obtain ⟨s', hs, hes⟩ := exec_effect i s
    obtain ⟨t', het, hafter⟩ := h.effect hes
    obtain ⟨hins, -⟩ := hes.channel
    obtain ⟨hint, -⟩ := het.channel
    exact ⟨s', t', (performWord_of_ok hd s).trans hs, (performWord_of_ok hd t).trans het.exec_eq, hins, hint, hafter⟩

/-- Agreeing states that are sent the same command word take it alike. -/
theorem step_agree {w : Word} {rest rest' : List HostEvent} (hs : s.input = .command w :: rest)
    (ht : t.input = .command w :: rest') :
    ∃ s' t', step s = .next s' ∧ step t = .next t' ∧ s'.input = rest ∧ t'.input = rest' ∧ AgreeAfter s t s' t' := by
  rw [step_of_input hs, step_of_input ht]
  exact performWord_agree (h.withChannel rest rest' s.output t.output) w

/-- Agreeing states answer any command words alike. -/
theorem run_agree {ws : List Word} (hs : s.input = ws.map .command) (ht : t.input = ws.map .command) :
    ∃ s' t', run ws.length s = .next s' ∧ run ws.length t = .next t' ∧ AgreeAfter s t s' t' := by
  induction ws generalizing s t with
  | nil => exact ⟨s, t, run_zero s, run_zero t, h, [], by simp, by simp⟩
  | cons w ws ih =>
    obtain ⟨s₁, t₁, hsteps, hstept, hins, hint, hafter⟩ := step_agree h hs ht
    obtain ⟨s', t', hruns, hrunt, hafter'⟩ := ih hafter.1 hins hint
    exact ⟨s', t', (run_succ hsteps _).trans hruns, (run_succ hstept _).trans hrunt, hafter.trans hafter'⟩

end answers

/-- Settles O51, by induction on the command words: agreement is kept by every one of them. -/
theorem sameCommandsGiveSameResponses : Obligations.SameCommandsGiveSameResponses := by
  refine ⟨fun s t hs ht => hs.agree ht, ?_, ?_⟩
  · intro s t s' t' hbppsel hs ht
    cases effect_of_exec hs
    cases effect_of_exec ht
    exact (agree_clear hbppsel).withChannel _ _ _ _
  · intro ws s t h hs ht
    obtain ⟨s', t', hruns, hrunt, hagree, rs, hrs, hrt⟩ := run_agree h hs ht
    exact ⟨s', t', rs, hruns, hrunt, hagree, hrs, hrt⟩

/-! ### The reading commands (R48) -/

/-- A reading command leaves every element as it was and returns one response. -/
theorem Effect.read_frame {s t : State} {i : Instr} (h : Effect s i t)
    (hi : i.mnemonic ∈ [Mnemonic.cvt, .lkp, .rdp, .rdpb, .rdt, .stat, .nop]) :
    ∃ r, t = { s with output := s.output ++ [r] } := by
  cases h with
  | nop | stat | lkpHit | lkpMiss | cvt | rdp | rdpBad | rdpb | rdpbBad | rdt | rdtBad => exact ⟨_, rfl⟩
  | clr | setbpp | setbppBad | insHit | insNew | insDrop | tsel | ldtHit | ldtMiss | ldi => simp [Instr.mnemonic] at hi

/-- Settles O50: after a read the block agrees with the one before it, so the same read gives the same response. -/
theorem readsWriteNothingAndRepeat : Obligations.ReadsWriteNothingAndRepeat := by
  intro i s hi
  obtain ⟨t, hexec, he⟩ := exec_effect i s
  obtain ⟨r, rfl⟩ := he.read_frame hi
  have hagree : Agree s { s with output := s.output ++ [r] } :=
    (Agree.refl s).withChannel s.input s.input s.output (s.output ++ [r])
  obtain ⟨t', he', -, rs, hrs, hrs'⟩ := hagree.effect he
  obtain ⟨r', rfl⟩ := he'.read_frame hi
  have hsame : r' = r := by
    rw [← List.append_cancel_left hrs] at hrs'
    simpa using List.append_cancel_left hrs'
  exact ⟨r, hexec, hsame ▸ he'.exec_eq⟩

end Sys2Proof.Machine

/-! PROOFS. The encoding of commands (30_encoding.md): decoder and encoder are inverse, the decoder follows the opcode
table, an illegal word is refused and writes nothing, every command word gets one response, and assembled lines decode to
their command (R60 to R72). -/

namespace Sys2Proof

/-! ### The decoder and the opcode table -/

/-- Settles O2: the operand of a command fits its form, and reading it back gives the command. -/
theorem decodeOfEncodeIsTheCommand : Obligations.DecodeOfEncodeIsTheCommand := decode_encode

/-- Settles O3: the decoder checks every operand bit that it does not read, so the two fields rebuild the word. -/
theorem encodeOfDecodeIsTheWord : Obligations.EncodeOfDecodeIsTheWord :=
  fun _ _ => encode_of_decode

/-- Settles O1: each of the words is the encoding of its command. -/
theorem writtenWordsDecode : Obligations.WrittenWordsDecode := by
  simp only [Obligations.WrittenWordsDecode, ← eq_encode_iff_decode]
  decide

/-- A row's match is its opcode with operand 0, and its mask is the opcode field with the form's reserved bits (R61,
R63). -/
theorem Mnemonic.row_eq (m : Mnemonic) : m.row = (m.opcode ++ 0#24, 0xFF#8 ++ m.form.resMask) := by
  cases m <;> rfl

theorem append_eq_append_iff {opc opc' : BitVec 8} {opd opd' : Data} :
    (opc ++ opd : Word) = opc' ++ opd' ↔ opc = opc' ∧ opd = opd' := by
  constructor
  · intro h
    have hopc := congrArg opcodeField h
    have hopd := congrArg operandField h
    rw [opcodeField_append, opcodeField_append] at hopc
    rw [operandField_append, operandField_append] at hopd
    exact ⟨hopc, hopd⟩
  · rintro ⟨rfl, rfl⟩
    rfl

/-- A word has a row's bits exactly when its opcode is the row's and its operand fits the form. -/
theorem Mnemonic.matchesRow_iff {m : Mnemonic} {w : Word} :
    m.matchesRow w = true ↔ opcodeField w = m.opcode ∧ (operandField w).toNat < 2 ^ m.form.width := by
  have hand : w &&& m.row.2 = opcodeField w ++ (operandField w &&& m.form.resMask) := by
    have hones : opcodeField w &&& 0xFF#8 = opcodeField w := BitVec.and_allOnes
    calc w &&& m.row.2
      _ = (opcodeField w ++ operandField w) &&& (0xFF#8 ++ m.form.resMask) := by rw [word_eq_fields, Mnemonic.row_eq]
      _ = (opcodeField w &&& 0xFF#8) ++ (operandField w &&& m.form.resMask) := BitVec.and_append
      _ = opcodeField w ++ (operandField w &&& m.form.resMask) := by rw [hones]
  rw [Mnemonic.matchesRow, beq_iff_eq, hand, Mnemonic.row_eq, append_eq_append_iff, reserved_clear_iff]

/-- Settles O4: both sides say that the opcode is the row's and the operand fits the form. -/
theorem decodeFollowsTheOpcodeTable : Obligations.DecodeFollowsTheOpcodeTable := by
  intro w m
  rw [Mnemonic.matchesRow_iff]
  constructor
  · rintro ⟨i, hd, rfl⟩
    obtain ⟨m, hopc, hfits, rfl⟩ := decode_eq_ok_iff.mp hd
    rw [Mnemonic.instr_mnemonic]
    exact ⟨hopc, hfits⟩
  · rintro ⟨hopc, hfits⟩
    exact ⟨m.instr (operandField w), decode_eq_ok_iff.mpr ⟨m, hopc, hfits, rfl⟩, m.instr_mnemonic _⟩

/-- The opcodes that R63 leaves unassigned, as the three ranges of R65. -/
theorem mnemonicOf_eq_none_iff {opc : BitVec 8} :
    mnemonicOf opc = none ↔ (4 ≤ opc.toNat ∧ opc.toNat ≤ 0x0F) ∨ (0x15 ≤ opc.toNat ∧ opc.toNat ≤ 0x1F) ∨
      0x24 ≤ opc.toNat := by
  simp only [mnemonicOf, List.find?_eq_none, Mnemonic.all, List.forall_mem_cons, Mnemonic.opcode, beq_iff_eq,
    List.not_mem_nil, false_imp_iff, implies_true, and_true]
  bv_omega

/-- No operand field is wider than OPD (R60, R61). -/
theorem Form.width_le (f : Form) : f.width ≤ 24 := by
  cases f <;> decide

/-- An assigned opcode with an operand that fits its form decodes. -/
theorem decode_opcode_append {m : Mnemonic} {opd : Data} (h : opd.toNat < 2 ^ m.form.width) :
    decode (m.opcode ++ opd) = .ok (m.instr opd) := by
  refine decode_eq_ok_iff.mpr ⟨m, opcodeField_append _ _, ?_⟩
  rw [operandField_append]
  exact ⟨h, rfl⟩

/-- SETBPP's is the one form whose operand is checked further: it is 2 or 4 (R82). -/
theorem Instr.wellFormed_iff (i : Instr) :
    i.wellFormed = true ↔ (i.mnemonic.form = .b → i.operand.toNat = 2 ∨ i.operand.toNat = 4) := by
  cases i with
  | setbpp b =>
    simp only [Instr.wellFormed, Instr.mnemonic, Mnemonic.form, Instr.operand, Bool.or_eq_true, beq_iff_eq, forall_const]
    bv_omega
  | _ => simp [Instr.wellFormed, Instr.mnemonic, Mnemonic.form]

end Sys2Proof

namespace Sys2Proof.Machine

/-! ### The step on one command word -/

section wordStep
variable {s : State} {w : Word} {rest : List HostEvent}

/-- A word that decodes to no command is answered with its error and writes nothing (R64, R150). -/
theorem step_of_decode_error {e : CmdError} (h : s.input = .command w :: rest) (hd : decode w = .error e) :
    step s = .next { s with input := rest, output := s.output ++ [errorWord e] } := by
  rw [step_of_input h, performEvent, performWord_of_error hd]
  rfl

theorem step_of_decode_ok {i : Instr} (h : s.input = .command w :: rest) (hd : decode w = .ok i) :
    step s = exec i (s.withInput rest) := by
  rw [step_of_input h, performEvent, performWord_of_ok hd]

end wordStep

/-- Settles O9: the decoded command is performed with the event taken off the channel. -/
theorem stepRunsTheDecodedCommand : Obligations.StepRunsTheDecodedCommand :=
  fun _ _ _ _ => step_of_decode_ok

/-- Settles O8: the word is NOP's encoding, and NOP's response is `respond({}, 0)`. -/
theorem zeroWordChangesNothing : Obligations.ZeroWordChangesNothing := by
  have hd : decode 0#32 = .ok .nop := decode_encode .nop
  refine ⟨hd, fun s rest h => ?_⟩
  rw [step_of_decode_ok h hd, exec, execNop, State.respond, okWord_noFlags]
  rfl

/-- Settles O5: the opcode field is the word divided by 2^24, and an unassigned opcode is the decoder's error. -/
theorem unassignedOpcodesAreRefused : Obligations.UnassignedOpcodesAreRefused := by
  refine ⟨fun w => ?_, by decide +kernel, fun s w rest h hd => step_of_decode_error h hd⟩
  rw [decode_eq_badOpcode_iff, mnemonicOf_eq_none_iff, opcodeField_toNat]

/-- Settles O6: an operand above its field has a reserved bit set, and that is the decoder's error. -/
theorem reservedOperandBitsAreRefused : Obligations.ReservedOperandBitsAreRefused := by
  intro s m opd rest h hwide
  have hd : decode (m.opcode ++ opd) = .error .reservedBits := by
    refine decode_eq_reservedBits_iff.mpr ⟨m, opcodeField_append _ _, ?_⟩
    rwa [operandField_append]
  exact step_of_decode_error h hd

/-! ### The response -/

/-- The words a command can be answered with: a response with flags and data, or an error (R68, R150). -/
inductive IsResponse : Word → Prop where
  | respond (f : RespFlags) (d : Data) : IsResponse (okWord f d)
  | raise (e : CmdError) : IsResponse (errorWord e)

/-- The fields of an answer: ECODE is 0 without ERR, and an error sets ERR and ECODE only (R68, R69, R151). -/
theorem IsResponse.fields {r : Word} (h : IsResponse r) :
    (respErr r = false → respEcode r = 0#4) ∧
    (respErr r = true → respMiss r = false ∧ respNew r = false ∧ respDrop r = false ∧ respData r = 0#24 ∧
      (respEcode r = 1#4 ∨ respEcode r = 2#4 ∨ respEcode r = 3#4)) := by
  cases h with
  | respond f d => simp
  | raise e => cases e <;> simp [errorCode]

theorem Effect.answers {s t : State} {i : Instr} (h : Effect s i t) :
    ∃ r, IsResponse r ∧ t.output = s.output ++ [r] := by
  cases h with
  | setbppBad | rdpBad | rdpbBad | rdtBad => exact ⟨_, .raise _, rfl⟩
  | nop | clr | setbpp | stat | insHit | insNew | insDrop | lkpHit | lkpMiss | cvt | rdp | rdpb | tsel | ldtHit | ldtMiss
    | ldi | rdt => exact ⟨_, .respond _ _, rfl⟩

/-- Every command word is performed to its end and answered once (R64, R182). -/
theorem step_answers {s : State} {w : Word} {rest : List HostEvent} (h : s.input = .command w :: rest) :
    ∃ t r, step s = .next t ∧ t.input = rest ∧ IsResponse r ∧ t.output = s.output ++ [r] := by
  cases hd : decode w with
  | error e => exact ⟨_, _, step_of_decode_error h hd, rfl, .raise e, rfl⟩
  | ok i =>
    obtain ⟨t, hexec, he⟩ := exec_effect i (s.withInput rest)
    obtain ⟨hin, -⟩ := he.channel
    obtain ⟨r, hr, hout⟩ := he.answers
    exact ⟨t, r, (step_of_decode_ok h hd).trans hexec, hin, hr, hout⟩

/-- Settles O10: a word that decodes is performed, any other raises its error, and both end in one response. -/
theorem everyWordGetsOneResponse : Obligations.EveryWordGetsOneResponse := by
  intro s w rest h
  obtain ⟨t, r, hstep, hin, -, hout⟩ := step_answers h
  exact ⟨t, r, hstep, hin, hout⟩

/-- Settles O13: the response is one of the two kinds of answer. -/
theorem responseFieldsAreConsistent : Obligations.ResponseFieldsAreConsistent := by
  intro s t w r rest h hstep hout
  obtain ⟨t', r', hstep', -, hr, hout'⟩ := step_answers h
  cases hstep.symm.trans hstep'
  obtain rfl : r = r' := by simpa using hout.symm.trans hout'
  exact hr.fields

/-! ### The assembler (R70) -/

/-- What the assembler asks of an operand, said once: it is absent exactly for form N, it fits its field, and SETBPP's is
2 or 4. -/
theorem operandProblem_eq_none_iff {m : Mnemonic} {operand : Option Nat} :
    operandProblem m operand = none ↔
      (operand = none ↔ m.form = .n) ∧ operand.getD 0 < 2 ^ m.form.width ∧
        (m.form = .b → operand.getD 0 = 2 ∨ operand.getD 0 = 4) := by
  cases operand with
  | none => by_cases hn : m.form = .n <;> simp [operandProblem, hn]
  | some n =>
    simp only [operandProblem, Option.getD_some, reduceCtorEq, false_iff]
    split_ifs with hn hwide hbpp
    · simp [hn]
    · simp [hwide]
    · simp [hbpp]
    · simp only [hn, Nat.not_le.mp hwide, not_false_eq_true, true_and, true_iff]
      intro hb
      by_contra hne
      exact hbpp ⟨hb, not_or.mp hne⟩

theorem assemble_command_eq_ok_iff {m : Mnemonic} {operand : Option Nat} {w : Word} :
    assemble (.command m operand) = .ok w ↔
      operandProblem m operand = none ∧ m.opcode ++ BitVec.ofNat 24 (operand.getD 0) = w := by
  cases h : operandProblem m operand <;> simp [assemble, h]

/-- The operand of a command's line: none for form N, else the number in the field (R70). -/
def sourceOperand (i : Instr) : Option Nat :=
  if i.mnemonic.form = .n then none else some i.operand.toNat

/-- A command without an operand has 0 in the field, so the line shows the whole operand. -/
theorem sourceOperand_getD (i : Instr) : (sourceOperand i).getD 0 = i.operand.toNat := by
  by_cases hn : i.mnemonic.form = .n
  · have hfits := i.operand_fits
    rw [hn] at hfits
    simpa [sourceOperand, hn, Form.width, eq_comm] using hfits
  · simp [sourceOperand, hn]

/-- Every well-formed command has a line, and the line's word is the command's encoding. -/
theorem assemble_sourceOperand {i : Instr} (h : i.wellFormed = true) :
    assemble (.command i.mnemonic (sourceOperand i)) = .ok (encode i) := by
  rw [assemble_command_eq_ok_iff, operandProblem_eq_none_iff, sourceOperand_getD, BitVec.ofNat_toNat, BitVec.setWidth_eq]
  exact ⟨⟨by simp [sourceOperand], i.operand_fits, i.wellFormed_iff.mp h⟩, rfl⟩

/-- Settles O52: the assembler's check of an operand is that it fits its form and its command is well-formed. -/
theorem assembledLinesDecodeToTheirCommand : Obligations.AssembledLinesDecodeToTheirCommand := by
  refine ⟨fun m operand w h => ?_, fun i hi => ⟨sourceOperand i, assemble_sourceOperand hi⟩⟩
  obtain ⟨hnone, rfl⟩ := assemble_command_eq_ok_iff.mp h
  obtain ⟨-, hfits, hbpp⟩ := operandProblem_eq_none_iff.mp hnone
  have hopd : (BitVec.ofNat 24 (operand.getD 0)).toNat = operand.getD 0 :=
    Nat.mod_eq_of_lt (hfits.trans_le (Nat.pow_le_pow_right (by decide) m.form.width_le))
  rw [← hopd] at hfits hbpp
  have hback := m.operand_instr _ hfits
  refine ⟨_, decode_opcode_append hfits, m.instr_mnemonic _, ?_, by rw [hback, hopd]⟩
  rw [Instr.wellFormed_iff, m.instr_mnemonic, hback]
  exact hbpp

end Sys2Proof.Machine

/-! PROOFS. The control commands NOP, CLR, SETBPP and STAT (40_control.md): their words, their errors and their effects
(R80 to R83), with the status word of R30. -/

namespace Sys2Proof

/-! ### The words of one opcode -/

/-- An assigned opcode decodes to its command when the operand fits the form, and is refused otherwise (R64, R66). -/
theorem decode_opcode_append_eq (m : Mnemonic) (opd : Data) :
    decode (m.opcode ++ opd) =
      if opd.toNat < 2 ^ m.form.width then .ok (m.instr opd) else .error .reservedBits := by
  split
  · exact decode_opcode_append ‹_›
  · refine decode_eq_reservedBits_iff.mpr ⟨m, opcodeField_append _ _, ?_⟩
    rw [operandField_append]
    omega

/-- The one operand that fits form N is 0 (R61). -/
theorem decode_opcode_append_form_n {m : Mnemonic} (hm : m.form = .n) (opd : Data) :
    decode (m.opcode ++ opd) = if opd = 0#24 then .ok (m.instr opd) else .error .reservedBits := by
  have hfits : opd.toNat < 2 ^ m.form.width ↔ opd = 0#24 := by
    have hall : opd &&& Form.n.resMask = opd := BitVec.and_allOnes
    rw [← reserved_clear_iff, hm, hall]
  simp only [decode_opcode_append_eq, hfits]

end Sys2Proof

namespace Sys2Proof.Machine

/-- `respond({}, data)` appends the data, zero-extended, and writes nothing else (R68). -/
theorem State.respond_noFlags (s : State) (d : Data) :
    s.respond noFlags d = { s with output := s.output ++ [d.setWidth 32] } := by
  rw [State.respond, okWord_noFlags]

/-! ### NOP and CLR -/

/-- Settles O16: NOP's form is N, and its effect is `respond({}, 0)`. -/
theorem nopOnlyAnswersZero : Obligations.NopOnlyAnswersZero := by
  refine ⟨decode_opcode_append_form_n (m := .nop) rfl, fun s => ?_⟩
  rw [Effect.nop.exec_eq, State.respond_noFlags]
  rfl

/-- Settles O17: CLR's form is N, and its effect is `clear` with the response 0. -/
theorem clrEmptiesPaletteAndTile : Obligations.ClrEmptiesPaletteAndTile := by
  refine ⟨decode_opcode_append_form_n (m := .clr) rfl, fun s => ⟨_, Effect.clr.exec_eq, ?_, fun n => ?_⟩⟩
  · rw [State.respond_noFlags]
    rfl
  · exact Vector.getElem_replicate n.isLt

/-! ### SETBPP -/

/-- SETBPP of a legal operand selects the format and answers 0 (R82). -/
theorem exec_setbpp_of_legal {b : BitVec 3} {sel : Bool} (h : bppselOf b = some sel) (s : State) :
    exec (.setbpp b) s = .next { s with bppsel := sel, output := s.output ++ [0#32] } := by
  rw [(Effect.setbpp h).exec_eq, State.respond_noFlags]
  rfl

/-- SETBPP's word carries its operand in OPD[2:0] (R82). -/
theorem decode_setbpp_append (opd : Data) :
    decode (0x02#8 ++ opd) =
      if opd.toNat < 8 then .ok (.setbpp (BitVec.ofNat 3 opd.toNat)) else .error .reservedBits := by
  have hfield : opd.extractLsb' 0 3 = BitVec.ofNat 3 opd.toNat := by simp [BitVec.extractLsb']
  rw [← hfield]
  exact decode_opcode_append_eq .setbpp opd

/-- Settles O18: `bppselOf` has a value at 2 and at 4 only. -/
theorem setbppSelectsTwoOrFour : Obligations.SetbppSelectsTwoOrFour := by
  refine ⟨decode_setbpp_append, exec_setbpp_of_legal rfl, exec_setbpp_of_legal rfl, fun b s h2 h4 => ?_⟩
  have hbad : bppselOf b = none :=
    bppselOf_eq_none_iff.mpr ⟨fun h => h2 (congrArg BitVec.toNat h), fun h => h4 (congrArg BitVec.toNat h)⟩
  exact (Effect.setbppBad hbad).exec_eq

/-! ### STAT -/

/-- The selected format holds 16 colors at 4 bpp and 4 at 2 bpp (R26, R27). -/
theorem capacity_bpp (s : State) : capacity s.bpp = if s.bppsel then 16 else 4 := by
  cases h : s.bppsel
  · rw [bpp_false h]
    rfl
  · rw [bpp_true h]
    rfl

/-- CAPW as a number, by the thresholds of the two formats (R27). -/
theorem capw_toNat (s : State) :
    s.capw.toNat = if (if s.bppsel then 16 else 4) < s.count.toNat then 1 else 0 := by
  rw [State.capw, capacity_bpp, Bool.toNat, Bool.cond_decide]

/-- STAT answers the fields of STATUS as one sum (R30, R83). -/
theorem exec_stat (s : State) :
    exec .stat s = .next { s with
      output := s.output ++ [BitVec.ofNat 32 (s.count.toNat + 512 * s.ovf.toNat
        + 1024 * (if (if s.bppsel then 16 else 4) < s.count.toNat then 1 else 0)
        + 2048 * s.bppsel.toNat + 4096 * s.tptr.toNat)] } := by
  have hword : s.statusWord.toNat = s.count.toNat + 512 * s.ovf.toNat + 1024 * s.capw.toNat + 2048 * s.bppsel.toNat
      + 4096 * s.tptr.toNat := by
    rw [statusWord_toNat]
    omega
  rw [Effect.stat.exec_eq, State.respond_noFlags, ← BitVec.ofNat_toNat, hword, capw_toNat]

/-- Settles O19: the answer right after reset is the sum with BPPSEL = 1 and every other field 0. -/
theorem statAnswersTheStatusFields : Obligations.StatAnswersTheStatusFields := by
  refine ⟨decode_opcode_append_form_n (m := .stat) rfl, exec_stat, fun s h => ?_⟩
  obtain ⟨hcount, hovf, hbppsel, htptr, -⟩ := h
  rw [exec_stat, hcount, hovf, hbppsel, htptr]
  rfl

end Sys2Proof.Machine

/-! PROOFS. The color truncation (41_color_truncator.md): CVT's word and effect (R90 to R92), and the triples of one color
(R93). -/

namespace Sys2Proof.Machine

/-! ### CVT -/

/-- The channels of `R ++ G ++ B` (R11). -/
theorem red_append (r g b : BitVec 8) : red (r ++ g ++ b) = r :=
  (BitVec.extractLsb'_append_eq_of_le (by decide)).trans BitVec.extractLsb'_append_eq_left

theorem green_append (r g b : BitVec 8) : green (r ++ g ++ b) = g :=
  (BitVec.extractLsb'_append_eq_of_le (by decide)).trans BitVec.extractLsb'_append_eq_right

theorem blue_append (r g b : BitVec 8) : blue (r ++ g ++ b) = b :=
  BitVec.extractLsb'_append_eq_right

/-- `c[7:3]`, zero-extended, equals `c >> 3` (R90). -/
theorem trunc5_setWidth (c : BitVec 8) : (trunc5 c).setWidth 32 = c.setWidth 32 >>> 3 := by
  apply BitVec.eq_of_toNat_eq
  rw [BitVec.toNat_setWidth_of_le (by decide), trunc5_toNat, BitVec.toNat_ushiftRight,
    BitVec.toNat_setWidth_of_le (by decide), Nat.shiftRight_eq_div_pow]

/-- The color, zero-extended, is the shifted channels or-ed together (R91). -/
theorem snes_append (r g b : BitVec 8) :
    (snes (r ++ g ++ b)).setWidth 32 =
      (r.setWidth 32 >>> 3) ||| ((g.setWidth 32 >>> 3) <<< 5) ||| ((b.setWidth 32 >>> 3) <<< 10) := by
  calc (snes (r ++ g ++ b)).setWidth 32
      = (trunc5 b ++ trunc5 g ++ trunc5 r).setWidth 32 := by rw [snes, red_append, green_append, blue_append]
    _ = (b.setWidth 32 >>> 3) <<< 10 ||| (g.setWidth 32 >>> 3) <<< 5 ||| r.setWidth 32 >>> 3 := by
      rw [BitVec.setWidth_append_append_eq_shiftLeft_setWidth_or]
      simp only [trunc5_setWidth, Nat.reduceAdd]
    _ = _ := by ac_rfl

/-- Settles O21: every operand fits form C, and CVT answers the color as data. -/
theorem cvtAnswersTheTruncatedColor : Obligations.CvtAnswersTheTruncatedColor := by
  refine ⟨fun opd => decode_opcode_append (m := .cvt) opd.isLt, fun r g b s => ?_⟩
  rw [Effect.cvt.exec_eq, State.respond_noFlags, BitVec.setWidth_setWidth (by decide), snes_append]

/-! ### The triples of one color -/

/-- A triple is determined by its three channel numbers, and any three make one (R11). -/
theorem eq_ofNat_channels_iff {rgb : Rgb} {r g b : Nat} (hr : r < 256) (hg : g < 256) (hb : b < 256) :
    rgb = BitVec.ofNat 24 (r * 65536 + g * 256 + b) ↔
      rgb.toNat / 65536 = r ∧ rgb.toNat / 256 % 256 = g ∧ rgb.toNat % 256 = b := by
  obtain ⟨hsum, hblue, hgreen, hred⟩ := channels_of_sum r g b hr hg hb
  constructor
  · rintro rfl
    rw [BitVec.toNat_ofNat, hsum]
    exact ⟨hred, hgreen, hblue⟩
  · rintro ⟨rfl, rfl, rfl⟩
    rw [← rgb_eq_channels, BitVec.ofNat_toNat, BitVec.setWidth_eq]

/-- A color is the sum of its three fields (R13). -/
theorem color_eq_fields (c : Color) :
    c.toNat = c.toNat / 1024 * 1024 + c.toNat / 32 % 32 * 32 + c.toNat % 32 := by
  omega

/-- A triple has the color `c` when the top five bits of its channels are `c`'s fields (R91). -/
theorem snes_eq_iff {rgb : Rgb} {c : Color} :
    snes rgb = c ↔ rgb.toNat / 65536 / 8 = c.toNat % 32 ∧ rgb.toNat / 256 % 256 / 8 = c.toNat / 32 % 32 ∧
      rgb.toNat % 256 / 8 = c.toNat / 1024 := by
  obtain ⟨hred, hgreen, hblue⟩ := snes_fields rgb
  rw [← hred, ← hgreen, ← hblue]
  constructor
  · rintro rfl
    exact ⟨rfl, rfl, rfl⟩
  · rintro ⟨hlow, hmid, hhigh⟩
    apply BitVec.eq_of_toNat_eq
    rw [color_eq_fields, hlow, hmid, hhigh, ← color_eq_fields]

/-- The triple with color `c` and these low bits: each channel is its color field followed by its low bits (R90, R93). -/
def tripleOf (c : Color) (lowR lowG lowB : Fin 8) : Rgb :=
  BitVec.ofNat 24 ((c.toNat % 32 * 8 + lowR) * 65536 + (c.toNat / 32 % 32 * 8 + lowG) * 256 + (c.toNat / 1024 * 8 + lowB))

theorem eq_tripleOf_iff {rgb : Rgb} {c : Color} {lowR lowG lowB : Fin 8} :
    rgb = tripleOf c lowR lowG lowB ↔ snes rgb = c ∧
      rgb.toNat / 65536 % 8 = lowR ∧ rgb.toNat / 256 % 8 = lowG ∧ rgb.toNat % 8 = lowB := by
  have hc := c.isLt
  rw [tripleOf, eq_ofNat_channels_iff (by omega) (by omega) (by omega), snes_eq_iff]
  omega

/-- Settles O22: the color and the low bits say that the triple is `tripleOf`. -/
theorem eachColorHas512Triples : Obligations.EachColorHas512Triples :=
  fun c lowR lowG lowB => ⟨tripleOf c lowR lowG lowB, eq_tripleOf_iff.mp rfl, fun _ => eq_tripleOf_iff.mpr⟩

end Sys2Proof.Machine

/-! PROOFS. The palette (42_palette_dedup.md): what INS, RDP and RDPB do (R101, R102, R105, R106), the order and the colors
of the entries (R103, R108), and the serialized palette read byte by byte (R107). -/

namespace Sys2Proof.Machine

/-! ### Present and absent triples -/

theorem State.not_present_iff {s : State} {rgb : Rgb} :
    ¬ s.Present rgb ↔ ∀ i : Fin 256, i.val < s.count.toNat → s.key[i] ≠ rgb := by
  simp only [State.Present, not_exists, not_and, ne_eq]

/-- In a full palette a triple is absent when no element of KEY holds it. -/
theorem not_present_of_forall_key_ne {s : State} {rgb : Rgb} (h : ∀ i : Fin 256, s.key[i] ≠ rgb) : ¬ s.Present rgb :=
  State.not_present_iff.mpr fun i _ => h i

theorem not_present_of_empty {s : State} (h : s.count = 0#9) (rgb : Rgb) : ¬ s.Present rgb :=
  State.not_present_iff.mpr fun i hi => by simp [h] at hi

/-- Whether a triple is present depends on KEY and COUNT only. -/
theorem present_congr {s t : State} (hk : s.key = t.key) (hc : s.count = t.count) {rgb : Rgb} :
    s.Present rgb ↔ t.Present rgb := by
  rw [present_iff_find, present_iff_find, find_congr hk hc]

/-- An append makes one more triple present. -/
theorem present_appendEntry_iff {s : State} {rgb u : Rgb} (hroom : s.count.toNat < 256) :
    (s.appendEntry rgb).Present u ↔ s.Present u ∨ u = rgb := by
  rw [← mem_validKeys_iff, validKeys_appendEntry rgb hroom, List.mem_append, List.mem_singleton, mem_validKeys_iff]

/-! ### INS (R101) -/

/-- INS of a present triple answers its index and writes nothing. -/
theorem exec_ins_of_find {s : State} {rgb : Rgb} {i : Nat} (h : s.find rgb = some i) :
    exec (.ins rgb) s = .next { s with output := s.output ++ [BitVec.ofNat 32 i] } := by
  obtain ⟨hi, -⟩ := find_lt h
  have hindex : (BitVec.ofNat 24 i).setWidth 32 = BitVec.ofNat 32 i := by
    apply BitVec.eq_of_toNat_eq
    simp only [BitVec.toNat_setWidth, BitVec.toNat_ofNat]
    omega
  rw [(Effect.insHit h).exec_eq, State.respond_noFlags, hindex]

/-- INS of an absent triple appends it while there is room, and NEW answers the new index. -/
theorem exec_ins_of_room {s : State} {rgb : Rgb} (h : ¬ s.Present rgb) (hroom : s.count.toNat < 256) :
    exec (.ins rgb) s = .next { s.appendEntry rgb with
      output := s.output ++ [BitVec.ofNat 32 (0x20000000 + s.count.toNat)] } := by
  have hdata : (s.count.setWidth 24).toNat = s.count.toNat := BitVec.toNat_setWidth_of_le (by decide)
  rw [(Effect.insNew h hroom).exec_eq, State.respond, okWord_newFlag, hdata, State.appendEntry_output]

/-- INS of an absent triple into a full palette sets OVF and answers MISS and DROP (R102). -/
theorem exec_ins_of_full {s : State} {rgb : Rgb} (h : ¬ s.Present rgb) (hfull : 256 ≤ s.count.toNat) :
    exec (.ins rgb) s = .next { s with ovf := true, output := s.output ++ [0x50000000#32] } := by
  rw [(Effect.insDrop h hfull).exec_eq, State.respond, okWord_missDropFlags]
  rfl

/-- Settles O23, one lemma for each of INS's three endings. -/
theorem insHitsAppendsOrDrops : Obligations.InsHitsAppendsOrDrops := by
  refine ⟨fun opd => decode_opcode_append (m := .ins) opd.isLt, fun s i hs hi => ?_, fun s rgb hroom hn => ?_,
    fun s rgb hfull hn => ?_⟩
  · exact exec_ins_of_find (find_key hs i.isLt hi)
  · rw [exec_ins_of_room (State.not_present_iff.mpr hn) hroom, ← appendEntry_key_eq rgb hroom,
      ← appendEntry_col_eq rgb hroom]
    rfl
  · exact exec_ins_of_full (not_present_of_forall_key_ne hn) hfull.ge

/-! ### Dropped triples (R102) -/

/-- LKP of an absent triple answers MISS and index 0 (R121). -/
theorem exec_lkp_of_absent {s : State} {rgb : Rgb} (h : ¬ s.Present rgb) :
    exec (.lkp rgb) s = .next { s with output := s.output ++ [0x40000000#32] } := by
  rw [(Effect.lkpMiss h).exec_eq, State.respond, okWord_missFlag]

/-- TPTR advances mod 64 (R29). -/
theorem tptr_add_one (p : BitVec 6) : p + 1#6 = BitVec.ofNat 6 ((p.toNat + 1) % 64) :=
  BitVec.eq_of_toNat_eq (by simp)

/-- LDT of an absent triple loads index 0 and answers MISS (R122). -/
theorem exec_ldt_of_absent {s : State} {rgb : Rgb} (h : ¬ s.Present rgb) :
    exec (.ldt rgb) s = .next { s with
      tbuf := s.tbuf.set s.tptr.toNat 0#8 s.tptr.isLt
      tptr := BitVec.ofNat 6 ((s.tptr.toNat + 1) % 64)
      output := s.output ++ [0x40000000#32] } := by
  rw [(Effect.ldtMiss h).exec_eq, State.respond, okWord_missFlag, State.loadSlot, tptr_add_one]

/-- Until it is emptied, a full palette keeps its entries. -/
theorem PaletteStep.keeps_full {s t : State} (h : PaletteStep s t) (hclear : ¬ s.ClearsNext)
    (hfull : 256 ≤ s.count.toNat) : t.key = s.key ∧ t.count = s.count := by
  cases h with
  | cleared hnext => exact absurd hnext hclear
  | appended _ _ hroom => omega
  | dropped _ _ _ hsame => exact ⟨hsame.key_eq, hsame.count_eq⟩
  | kept _ _ hsame => exact ⟨hsame.key_eq, hsame.count_eq⟩

/-- No command words without a CLR enter an absent triple into a full palette. -/
theorem run_keeps_absent {s : State} {rgb : Rgb} {ws : List Word} (hin : s.input = ws.map .command)
    (hclr : encode .clr ∉ ws) (hfull : 256 ≤ s.count.toNat) (hn : ¬ s.Present rgb) :
    ∃ u, run ws.length s = .next u ∧ ¬ u.Present rgb := by
  induction ws generalizing s with
  | nil => exact ⟨s, run_zero s, hn⟩
  | cons w ws ih =>
    obtain ⟨hw, hclr'⟩ := not_or.mp (mt List.mem_cons.mpr hclr)
    obtain ⟨t, -, hstep, hin', -⟩ := step_answers hin
    have hclear : ¬ s.ClearsNext := by
      rw [clearsNext_iff_decode hin, ← eq_encode_iff_decode]
      exact Ne.symm hw
    obtain ⟨hk, hc⟩ := (step_palette hstep).keeps_full hclear hfull
    rw [List.length_cons, run_succ hstep]
    exact ih hin' hclr' (hc ▸ hfull) (mt (present_congr hk hc).mp hn)

/-- Settles O24: the triple is absent when it is dropped, and stays so. -/
theorem droppedTriplesStayAbsent : Obligations.DroppedTriplesStayAbsent := by
  intro s rgb ws hcount hkey hclr hin
  have hn : ¬ s.Present rgb := not_present_of_forall_key_ne hkey
  have hstep := (step_of_command hin).trans (exec_ins_of_full hn hcount.ge)
  obtain ⟨u, hrun, hu⟩ := run_keeps_absent (s := { s with
    input := ws.map .command, ovf := true, output := s.output ++ [0x50000000#32] }) rfl hclr hcount.ge hn
  exact ⟨_, u, hstep, rfl, hrun, exec_lkp_of_absent hu, exec_ldt_of_absent hu⟩

/-! ### RDP and RDPB (R105, R106) -/

/-- An operand field that starts at bit 0 is the operand's value, cut to the field's width (R61). -/
theorem extractLsb'_zero_eq_ofNat {m : Nat} (n : Nat) (x : BitVec m) : x.extractLsb' 0 n = BitVec.ofNat n x.toNat := by
  simp [BitVec.extractLsb']

theorem decode_rdp_append (opd : Data) :
    decode (0x13#8 ++ opd) =
      if opd.toNat < 256 then .ok (.rdp (BitVec.ofNat 8 opd.toNat)) else .error .reservedBits := by
  rw [← extractLsb'_zero_eq_ofNat]
  exact decode_opcode_append_eq .rdp opd

theorem decode_rdpb_append (opd : Data) :
    decode (0x14#8 ++ opd) =
      if opd.toNat < 512 then .ok (.rdpb (BitVec.ofNat 9 opd.toNat)) else .error .reservedBits := by
  rw [← extractLsb'_zero_eq_ofNat]
  exact decode_opcode_append_eq .rdpb opd

/-- COL by an index that is given as a number. -/
theorem colorAt_eq {s : State} {b : BitVec 8} {i : Fin 256} (h : b.toNat = i.val) : s.colorAt b = s.col[i] := by
  simp only [State.colorAt, h, Fin.getElem_fin]

/-- Settles O25: an operand is its own index, and the two branches of RDP are the two ranges. -/
theorem rdpAnswersTheEntryColor : Obligations.RdpAnswersTheEntryColor := by
  refine ⟨decode_rdp_append, fun s i => ?_⟩
  have hidx : (BitVec.ofNat 8 i.val).toNat = i.val := Nat.mod_eq_of_lt i.isLt
  refine ⟨fun hi => ?_, fun hi => ?_⟩
  · rw [(Effect.rdp (hidx.symm ▸ hi)).exec_eq, State.respond_noFlags, State.colorField, colorAt_eq hidx,
      BitVec.setWidth_setWidth (by decide), BitVec.setWidth_setWidth (by decide)]
  · exact (Effect.rdpBad (hidx.symm ▸ hi)).exec_eq

section serializedBytes
variable (s : State) (i : Fin 256)

theorem rdpb_even_toNat : (BitVec.ofNat 9 (2 * i.val)).toNat = 2 * i.val := Nat.mod_eq_of_lt (by omega)

theorem rdpb_odd_toNat : (BitVec.ofNat 9 (2 * i.val + 1)).toNat = 2 * i.val + 1 := Nat.mod_eq_of_lt (by omega)

/-- Byte 2i of the serialized palette is the low byte of entry i (R42). -/
theorem serializedByte_even : s.serializedByte (BitVec.ofNat 9 (2 * i.val)) = BitVec.ofNat 8 s.col[i].toNat := by
  have hentry : s.colorAt (entryOfByte (BitVec.ofNat 9 (2 * i.val))) = s.col[i] := by
    apply colorAt_eq
    rw [entryOfByte_toNat, rdpb_even_toNat]
    omega
  apply BitVec.eq_of_toNat_eq
  rw [serializedByte_toNat, hentry, rdpb_even_toNat, Nat.mul_mod_right, Nat.pow_zero, Nat.div_one, BitVec.toNat_ofNat]

/-- Byte 2i + 1 of the serialized palette is the high byte of entry i (R42). -/
theorem serializedByte_odd :
    s.serializedByte (BitVec.ofNat 9 (2 * i.val + 1)) = BitVec.ofNat 8 (s.col[i].toNat / 256) := by
  have hentry : s.colorAt (entryOfByte (BitVec.ofNat 9 (2 * i.val + 1))) = s.col[i] := by
    apply colorAt_eq
    rw [entryOfByte_toNat, rdpb_odd_toNat]
    omega
  apply BitVec.eq_of_toNat_eq
  rw [serializedByte_toNat, hentry, rdpb_odd_toNat, Nat.mul_add_mod, Nat.pow_one, BitVec.toNat_ofNat]

end serializedBytes

/-- RDPB of a valid byte position answers the byte and writes nothing. -/
theorem exec_rdpb_of_lt {s : State} {j : BitVec 9} (h : j.toNat < 2 * s.count.toNat) :
    exec (.rdpb j) s = .next { s with output := s.output ++ [(s.serializedByte j).setWidth 32] } := by
  rw [(Effect.rdpb h).exec_eq, State.respond, okWord_noFlags_byte]

/-- A byte in a response word. -/
theorem setWidth_ofNat_byte (n : Nat) : (BitVec.ofNat 8 n).setWidth 32 = BitVec.ofNat 32 (n % 256) := by
  apply BitVec.eq_of_toNat_eq
  simp only [BitVec.toNat_setWidth, BitVec.toNat_ofNat]

/-- Settles O26: the two byte positions of an entry are below 2 × COUNT exactly when the entry is valid. -/
theorem rdpbAnswersTheSerializedByte : Obligations.RdpbAnswersTheSerializedByte := by
  refine ⟨decode_rdpb_append, fun s i => ?_⟩
  have heven := rdpb_even_toNat i
  have hodd := rdpb_odd_toNat i
  refine ⟨fun hi => ⟨?_, ?_⟩, fun hi => ⟨?_, ?_⟩⟩
  · rw [exec_rdpb_of_lt (by omega), serializedByte_even, setWidth_ofNat_byte]
  · have hhigh : s.col[i].toNat / 256 < 256 := by omega
    rw [exec_rdpb_of_lt (by omega), serializedByte_odd, setWidth_ofNat_byte, Nat.mod_eq_of_lt hhigh]
  · exact (Effect.rdpbBad (by omega)).exec_eq
  · exact (Effect.rdpbBad (by omega)).exec_eq

/-! ### Duplicate colors (R108) -/

/-- Settles O27: both triples are absent when they are inserted, so both are appended. -/
theorem duplicateColorsKeepTheirOwnEntries : Obligations.DuplicateColorsKeepTheirOwnEntries := by
  intro s a b hcount hab hsnes
  have hroom : s.count.toNat < 256 := by simp [hcount]
  have hroom' : (s.appendEntry a).count.toNat < 256 := by simp [hcount]
  have ha : ¬ s.Present a := not_present_of_empty hcount a
  have hb : ¬ (s.appendEntry a).Present b := by
    rw [present_appendEntry_iff hroom]
    exact not_or.mpr ⟨not_present_of_empty hcount b, hab.symm⟩
  refine ⟨_, _, exec_ins_of_room ha hroom, exec_ins_of_room (mt (present_congr rfl rfl).mp hb) hroom', ?_⟩
  simp [hcount, hsnes]

/-! ### First-seen order (R103) -/

/-- The colors of the valid entries are those of their triples (INV3). -/
theorem State.Inv.colors_eq {s : State} (h : s.Inv) : s.col.toList.take s.count.toNat = s.validKeys.map snes := by
  apply List.ext_getElem
  · simp [validKeys_length]
  · intro i hi hi'
    rw [List.length_map, validKeys_length] at hi'
    rw [List.getElem_map, validKeys_getElem, List.getElem_take, Vector.getElem_toList]
    exact h.colors_match ⟨i, by omega⟩ (by show i < _; omega)

/-- The distinct triples seen so far, with one more triple seen. -/
def seeTriple (seen : List Rgb) (rgb : Rgb) : List Rgb := if rgb ∈ seen then seen else seen ++ [rgb]

/-- Seeing triples one by one is the source's extraction of the distinct ones. -/
theorem foldl_seeTriple (ts seen : List Rgb) :
    ts.foldl seeTriple seen = seen ++ (distinctTriples ts).filter fun u => u ∉ seen := by
  induction ts generalizing seen with
  | nil => simp [distinctTriples]
  | cons t ts ih =>
    rw [List.foldl_cons, ih, distinctTriples, seeTriple]
    by_cases h : t ∈ seen
    · rw [if_pos h, List.filter_cons_of_neg (by simpa using h), List.filter_filter]
      grind
    · rw [if_neg h, List.filter_cons_of_pos (by simpa using h), List.filter_filter, List.append_assoc]
      grind

theorem foldl_seeTriple_nil (ts : List Rgb) : ts.foldl seeTriple [] = distinctTriples ts := by
  simp [foldl_seeTriple]

/-- The palette holds the first 256 of the distinct triples seen since it was empty, and OVF tells of any further ones. -/
structure HoldsFirst (s : State) (seen : List Rgb) : Prop where
  inv : s.Inv
  keys_eq : s.validKeys = seen.take 256
  ovf_eq : s.ovf = decide (256 < seen.length)

theorem HoldsFirst.count_eq {s : State} {seen : List Rgb} (h : HoldsFirst s seen) :
    s.count.toNat = min 256 seen.length := by
  have hle := h.inv.count_le
  have hlen := congrArg List.length h.keys_eq
  rw [validKeys_length, List.length_take] at hlen
  omega

theorem HoldsFirst.present_iff {s : State} {seen : List Rgb} (h : HoldsFirst s seen) {rgb : Rgb} :
    s.Present rgb ↔ rgb ∈ seen.take 256 := by
  rw [← mem_validKeys_iff, h.keys_eq]

theorem holdsFirst_of_empty {s : State} (hcount : s.count = 0#9) (hovf : s.ovf = false) : HoldsFirst s [] where
  inv := inv_of_empty hcount hovf
  keys_eq := by simp [State.validKeys, hcount]
  ovf_eq := hovf

theorem SamePalette.validKeys_eq {s t : State} (h : SamePalette s t) : t.validKeys = s.validKeys := by
  rw [State.validKeys, State.validKeys, h.key_eq, h.count_eq]

theorem HoldsFirst.of_samePalette {s t : State} {seen : List Rgb} (h : HoldsFirst s seen) (hsame : SamePalette s t) :
    HoldsFirst t seen where
  inv := h.inv.of_samePalette hsame
  keys_eq := hsame.validKeys_eq.trans h.keys_eq
  ovf_eq := hsame.ovf_eq.trans h.ovf_eq

/-- A triple that is absent from a palette with room has not been seen, and is entered at the end. -/
theorem HoldsFirst.appendEntry {s : State} {seen : List Rgb} {rgb : Rgb} (h : HoldsFirst s seen)
    (habsent : ¬ s.Present rgb) (hroom : s.count.toNat < 256) : HoldsFirst (s.appendEntry rgb) (seeTriple seen rgb) := by
  have hcount := h.count_eq
  have htake : seen.take 256 = seen := List.take_of_length_le (by omega)
  have hnew : rgb ∉ seen := by rwa [h.present_iff, htake] at habsent
  have hlen : (seen ++ [rgb]).length ≤ 256 := by
    rw [List.length_append, List.length_singleton]
    omega
  rw [seeTriple, if_neg hnew]
  refine ⟨appendEntry_inv h.inv hroom habsent, ?_, ?_⟩
  · rw [validKeys_appendEntry rgb hroom, h.keys_eq, htake, List.take_of_length_le hlen]
  · rw [State.appendEntry_ovf, h.ovf_eq, decide_eq_decide]
    omega

/-- A triple that is absent from a full palette has been dropped before or is one more than 256. -/
theorem HoldsFirst.markOverflow {s : State} {seen : List Rgb} {rgb : Rgb} (h : HoldsFirst s seen)
    (habsent : ¬ s.Present rgb) (hfull : 256 ≤ s.count.toNat) : HoldsFirst s.markOverflow (seeTriple seen rgb) := by
  have hcount := h.count_eq
  have hinv := markOverflow_inv h.inv hfull
  by_cases hseen : rgb ∈ seen
  · have hlong : 256 < seen.length := by
      by_contra hle
      rw [h.present_iff, List.take_of_length_le (by omega)] at habsent
      exact habsent hseen
    rw [seeTriple, if_pos hseen]
    exact ⟨hinv, h.keys_eq, (decide_eq_true hlong).symm⟩
  · have hkeys : (seen ++ [rgb]).take 256 = seen.take 256 := List.take_append_of_le_length (by omega)
    have hlong : 256 < (seen ++ [rgb]).length := by
      rw [List.length_append, List.length_singleton]
      omega
    rw [seeTriple, if_neg hseen]
    exact ⟨hinv, h.keys_eq.trans hkeys.symm, (decide_eq_true hlong).symm⟩

/-- INS of a triple is the palette's way of seeing it. -/
theorem HoldsFirst.step {s t : State} {seen : List Rgb} {rgb : Rgb} (h : HoldsFirst s seen) (hnext : s.InsertsNext rgb)
    (hstep : step s = .next t) : HoldsFirst t (seeTriple seen rgb) := by
  cases step_palette hstep with
  | cleared hclear => exact absurd hclear hnext.not_clearsNext
  | appended hnext' habsent hroom hsame =>
    obtain rfl := hnext.unique hnext'
    exact (h.appendEntry habsent hroom).of_samePalette hsame
  | dropped hnext' habsent hfull hsame =>
    obtain rfl := hnext.unique hnext'
    exact (h.markOverflow habsent hfull).of_samePalette hsame
  | kept _ hpresent hsame =>
    have hseen : rgb ∈ seen := List.mem_of_mem_take (h.present_iff.mp (hpresent rgb hnext))
    rw [seeTriple, if_pos hseen]
    exact h.of_samePalette hsame

/-- INS of several triples. -/
theorem run_inserts {s : State} {seen ts : List Rgb} (h : HoldsFirst s seen)
    (hin : s.input = commandEvents (ts.map .ins)) :
    ∃ t, run ts.length s = .next t ∧ HoldsFirst t (ts.foldl seeTriple seen) := by
  induction ts generalizing s seen with
  | nil => exact ⟨s, run_zero s, h⟩
  | cons rgb ts ih =>
    obtain ⟨t, -, hstep, hin', -⟩ := step_answers hin
    rw [List.length_cons, run_succ hstep]
    exact ih (h.step ⟨_, hin⟩ hstep) hin'

/-- Settles O28, by induction on the triples inserted. -/
theorem paletteIsFirstSeenOrder : Obligations.PaletteIsFirstSeenOrder := by
  intro s ts hcount hovf hin
  obtain ⟨t, hrun, h⟩ := run_inserts (holdsFirst_of_empty hcount hovf) hin
  rw [foldl_seeTriple_nil] at h
  exact ⟨t, hrun, h.count_eq, h.keys_eq, h.inv.colors_eq.trans (congrArg _ h.keys_eq), h.ovf_eq⟩

/-! ### The serialized palette (R107) -/

/-- Commands that answer and write nothing, one for each `x`: their responses are returned in order. -/
theorem run_answers {α : Type} {s : State} {xs : List α} {rest : List HostEvent} (cmd : α → Instr) (answer : α → Word)
    (hcmd : ∀ x ∈ xs, ∀ l o, exec (cmd x) (s.withChannel l o) = .next (s.withChannel l (o ++ [answer x])))
    (hin : s.input = commandEvents (xs.map cmd) ++ rest) :
    run xs.length s = .next (s.withChannel rest (s.output ++ xs.map answer)) := by
  induction xs generalizing s with
  | nil =>
    have hin' : s.input = rest := hin
    simp [run_zero, State.withChannel, ← hin']
  | cons x xs ih =>
    obtain ⟨hx, hxs⟩ := List.forall_mem_cons.mp hcmd
    let t := s.withChannel (commandEvents (xs.map cmd) ++ rest) (s.output ++ [answer x])
    have hstep : step s = .next t := (step_of_command hin).trans (hx _ s.output)
    rw [List.length_cons, run_succ hstep, ih (s := t) hxs rfl]
    simp [t, State.withChannel]

/-- The bytes at the first 2n positions are the serialized first n entries (R42, INV3). -/
theorem serializedBytes_eq {s : State} (hs : s.Inv) {n : Nat} (hn : n ≤ s.count.toNat) :
    (List.range (2 * n)).map (fun j => s.serializedByte (BitVec.ofNat 9 j)) =
      serializePalette (s.key.toList.take n) := by
  induction n with
  | zero => rfl
  | succ n ih =>
    have hlt : n < 256 := by have := hs.count_le; omega
    have hcol := hs.colors_match ⟨n, hlt⟩ hn
    have heven := serializedByte_even s ⟨n, hlt⟩
    have hodd := serializedByte_odd s ⟨n, hlt⟩
    rw [hcol] at heven hodd
    have hkeys : s.key.toList.take (n + 1) = s.key.toList.take n ++ [s.key[n]] := by
      simp [List.take_add_one, hlt]
    rw [Nat.mul_succ, List.range_succ, List.range_succ, List.map_append, List.map_append, ih (by omega), hkeys]
    simp [serializePalette, littleEndian, heven, hodd]

theorem serializePalette_length (pal : List Rgb) : (serializePalette pal).length = 2 * pal.length := by
  simp [serializePalette, littleEndian, Nat.mul_comm]

/-- Settles O29: the positions read are the legal ones, and their bytes are the serialized entries. -/
theorem paletteReadsGiveTheSerializedPalette : Obligations.PaletteReadsGiveTheSerializedPalette := by
  intro s hs hin
  have hle := hs.count_le
  constructor
  · have hread : ∀ j ∈ List.range (2 * s.count.toNat), ∀ l o,
        exec (.rdpb (BitVec.ofNat 9 j)) (s.withChannel l o) =
          .next (s.withChannel l (o ++ [(s.serializedByte (BitVec.ofNat 9 j)).setWidth 32])) := by
      intro j hj l o
      have hpos : (BitVec.ofNat 9 j).toNat < 2 * s.count.toNat := by
        simp only [List.mem_range, BitVec.toNat_ofNat] at hj ⊢
        omega
      exact exec_rdpb_of_lt (s := s.withChannel l o) hpos
    have hrun := run_answers (rest := []) _ _ hread (hin.trans (List.append_nil _).symm)
    rw [List.length_range] at hrun
    rw [hrun, ← serializedBytes_eq hs le_rfl, List.map_map]
    rfl
  · rw [serializePalette_length, List.length_take, Vector.length_toList, Nat.min_eq_left hle]

end Sys2Proof.Machine

/-! PROOFS. The lookup (43_palette_lookup.md): what LKP and LDT do on a hit and on a miss (R121, R122), and the index of a
found triple (R124). -/

namespace Sys2Proof.Machine

/-- `respond({}, i)` of a palette index answers that index and writes nothing else (R68, R120). -/
theorem respond_index (s : State) {i : Nat} (h : i < 256) :
    s.respond noFlags ((BitVec.ofNat 8 i).setWidth 24) = { s with output := s.output ++ [BitVec.ofNat 32 i] } := by
  rw [State.respond, okWord_noFlags_byte, setWidth_index h]

/-! ### LKP (R121) -/

/-- LKP of a present triple answers its index and writes nothing. -/
theorem exec_lkp_of_find {s : State} {rgb : Rgb} {i : Nat} (h : s.find rgb = some i) :
    exec (.lkp rgb) s = .next { s with output := s.output ++ [BitVec.ofNat 32 i] } := by
  rw [(Effect.lkpHit h).exec_eq, respond_index s (find_lt h).1]

/-- Settles O30, one lemma for each of LKP's two endings. -/
theorem lkpAnswersTheIndexOrMiss : Obligations.LkpAnswersTheIndexOrMiss := by
  refine ⟨fun opd => decode_opcode_append (m := .lkp) opd.isLt, fun s i hs hi => ?_, fun s rgb hn => ?_⟩
  · exact exec_lkp_of_find (find_key hs i.isLt hi)
  · exact exec_lkp_of_absent (State.not_present_iff.mpr hn)

/-! ### LDT (R122) -/

/-- LDT of a present triple loads its index and answers it. -/
theorem exec_ldt_of_find {s : State} {rgb : Rgb} {i : Nat} (h : s.find rgb = some i) :
    exec (.ldt rgb) s = .next { s with
      tbuf := s.tbuf.set s.tptr.toNat (BitVec.ofNat 8 i) s.tptr.isLt
      tptr := BitVec.ofNat 6 ((s.tptr.toNat + 1) % 64)
      output := s.output ++ [BitVec.ofNat 32 i] } := by
  rw [(Effect.ldtHit h).exec_eq, respond_index _ (find_lt h).1, State.loadSlot, tptr_add_one]

/-- Settles O31, one lemma for each of LDT's two endings. -/
theorem ldtLoadsTheIndexOrZero : Obligations.LdtLoadsTheIndexOrZero := by
  refine ⟨fun opd => decode_opcode_append (m := .ldt) opd.isLt, fun s i hs hi => ?_, fun s rgb hn => ?_⟩
  · exact exec_ldt_of_find (find_key hs i.isLt hi)
  · exact exec_ldt_of_absent (State.not_present_iff.mpr hn)

/-! ### The index of a found triple (R124) -/

/-- The search reads the palette only. -/
theorem SamePalette.find_eq {s t : State} (h : SamePalette s t) (rgb : Rgb) : t.find rgb = s.find rgb :=
  find_congr h.key_eq h.count_eq rgb

/-- Unless the palette is emptied, a found triple is found at the same index after the step. -/
theorem PaletteStep.keeps_found {s t : State} {rgb : Rgb} {i : Nat} (h : PaletteStep s t) (hclear : ¬ s.ClearsNext)
    (hfind : s.find rgb = some i) : t.find rgb = some i := by
  cases h with
  | cleared hnext => exact absurd hnext hclear
  | appended _ _ hroom hsame => exact (hsame.find_eq rgb).trans (find_appendEntry_of_found hroom hfind)
  | dropped _ _ _ hsame => exact (hsame.find_eq rgb).trans hfind
  | kept _ _ hsame => exact (hsame.find_eq rgb).trans hfind

/-- Settles O32, by the four ways a step can treat the palette. -/
theorem foundTriplesKeepTheirIndex : Obligations.FoundTriplesKeepTheirIndex := by
  intro s t rgb i _ hclear hstep hfind
  exact (step_palette hstep).keeps_found hclear hfind

end Sys2Proof.Machine

/-! PROOFS. The tile packer (44_tile_packer.md): what TSEL, LDI and RDT do (R135 to R137), which slot bits a packed byte
reads (R134, R138), and the packed tile as the source's `encodeTile` (R133, R139). -/

namespace Sys2Proof.Machine

/-! ### The operand as the response -/

/-- `respond({}, x)` of an operand field or a byte answers `x`, zero-extended, and writes nothing else (R68). -/
theorem respond_field {n : Nat} (hn : n ≤ 24) (s : State) (x : BitVec n) :
    s.respond noFlags (x.setWidth 24) = { s with output := s.output ++ [BitVec.ofNat 32 x.toNat] } := by
  rw [State.respond_noFlags, BitVec.setWidth_setWidth (by omega), BitVec.ofNat_toNat]

/-! ### TSEL (R135) -/

/-- Settles O33: TSEL's operand is its 6-bit field, and its effect is `setTptr` with the slot as the response. -/
theorem tselSetsTheSlotPointer : Obligations.TselSetsTheSlotPointer := by
  refine ⟨fun opd => ?_, fun s slot => ?_⟩
  · rw [← extractLsb'_zero_eq_ofNat]
    exact decode_opcode_append_eq .tsel opd
  · rw [Effect.tsel.exec_eq, respond_field (by decide)]
    rfl

/-! ### LDI (R136) -/

/-- Settles O34: LDI's operand is its 8-bit field, and its effect is `loadSlot` with the value as the response. -/
theorem ldiLoadsTheRawIndex : Obligations.LdiLoadsTheRawIndex := by
  refine ⟨fun opd => ?_, fun s v => ?_⟩
  · rw [← extractLsb'_zero_eq_ofNat]
    exact decode_opcode_append_eq .ldi opd
  · rw [Effect.ldi.exec_eq, respond_field (by decide), State.loadSlot, tptr_add_one]

/-! ### RDT (R137) -/

theorem bpp_congr {s t : State} (h : s.bppsel = t.bppsel) : s.bpp = t.bpp := by
  rw [State.bpp, State.bpp, h]

/-- A packed tile has 32 bytes at 4 bpp and 16 at 2 bpp (R26, R133). -/
theorem tileBytes_bpp (s : State) : tileBytes s.bpp = if s.bppsel then 32 else 16 := by
  cases h : s.bppsel
  · rw [bpp_false h]
    rfl
  · rw [bpp_true h]
    rfl

/-- What RDT k answers: the packed byte, or CmdError(3) (R137). -/
def State.rdtResponse (s : State) (k : BitVec 5) : Word :=
  if k.toNat < tileBytes s.bpp then (s.packByte k).setWidth 32 else errorWord .outOfRange

section rdtResponse
variable {s t : State} {k : BitVec 5}

theorem rdtResponse_of_lt (h : k.toNat < tileBytes s.bpp) : s.rdtResponse k = (s.packByte k).setWidth 32 := if_pos h

theorem rdtResponse_of_le (h : tileBytes s.bpp ≤ k.toNat) : s.rdtResponse k = errorWord .outOfRange :=
  if_neg (Nat.not_lt.mpr h)

/-- RDT answers and writes nothing else. -/
theorem exec_rdt (s : State) (k : BitVec 5) :
    exec (.rdt k) s = .next { s with output := s.output ++ [s.rdtResponse k] } := by
  obtain h | h := Nat.lt_or_ge k.toNat (tileBytes s.bpp)
  · rw [(Effect.rdt h).exec_eq, State.respond, okWord_noFlags_byte, rdtResponse_of_lt h]
  · rw [(Effect.rdtBad h).exec_eq, State.raise, rdtResponse_of_le h]

/-- In two states of one format, RDT's answers agree if the packed bytes do. -/
theorem rdtResponse_congr (hb : s.bpp = t.bpp) (h : k.toNat < tileBytes s.bpp → s.packByte k = t.packByte k) :
    s.rdtResponse k = t.rdtResponse k := by
  obtain hk | hk := Nat.lt_or_ge k.toNat (tileBytes s.bpp)
  · rw [rdtResponse_of_lt hk, rdtResponse_of_lt (hb ▸ hk), h hk]
  · rw [rdtResponse_of_le hk, rdtResponse_of_le (hb ▸ hk)]

end rdtResponse

/-- Settles O35: the answer is `rdtResponse`, and the packed byte's bits are `packByte_getLsbD`. -/
theorem rdtAnswersThePackedByte : Obligations.RdtAnswersThePackedByte := by
  refine ⟨fun opd => ?_, fun s k => ?_⟩
  · rw [← extractLsb'_zero_eq_ofNat]
    exact decode_opcode_append_eq .rdt opd
  · have hk : (BitVec.ofNat 5 k.val).toNat = k.val := Nat.mod_eq_of_lt k.isLt
    rw [← tileBytes_bpp, exec_rdt]
    refine ⟨fun hlt => ⟨s.packByte (BitVec.ofNat 5 k.val), ?_, fun x => ?_⟩, fun hle => ?_⟩
    · rw [rdtResponse_of_lt (hk.symm ▸ hlt)]
    · simpa only [hk] using packByte_getLsbD s (BitVec.ofNat 5 k.val) x.val x.isLt
    · rw [rdtResponse_of_le (hk.symm ▸ hle)]
      rfl

/-! ### The bits the packer reads (R134, R138) -/

/-- `packByte_getLsbD` by the bit's position. -/
theorem packByte_getLsbD_of_lt (s : State) (k : BitVec 5) {n : Nat} (hn : n < 8) :
    (s.packByte k).getLsbD n =
      (s.tbuf[k.toNat % 16 / 2 * 8 + (7 - n)]'(by omega)).getLsbD (2 * (k.toNat / 16) + k.toNat % 2) := by
  rw [← packByte_getLsbD s k (7 - n) (by omega), Nat.sub_sub_self (by omega)]

/-- The plane of a byte of the packed tile is one of the selected format's (R132, R133). -/
theorem plane_lt_bpp {s : State} {k : BitVec 5} (h : k.toNat < tileBytes s.bpp) :
    2 * (k.toNat / 16) + k.toNat % 2 < s.bpp := by
  obtain hb | hb := bpp_cases s
  · rw [hb] at h ⊢
    have : k.toNat < 16 := h
    omega
  · rw [hb]
    omega

/-- Cutting a value to its low `b` bits keeps each of them. -/
theorem getLsbD_low_bits {p b : Nat} (h : p < b) (v : Byte) :
    (BitVec.ofNat 8 (v.toNat % 2 ^ b)).getLsbD p = v.getLsbD p := by
  have hfits : v.toNat % 2 ^ b < 2 ^ 8 := (Nat.mod_le _ _).trans_lt v.isLt
  rw [BitVec.getLsbD, BitVec.toNat_ofNat, Nat.mod_eq_of_lt hfits, Nat.testBit_mod_two_pow, decide_eq_true h,
    Bool.true_and, BitVec.getLsbD]

/-- The block with every slot cut to its low bpp() bits (R134). -/
def State.cutSlots (s : State) : State :=
  { s with tbuf := s.tbuf.map fun v => BitVec.ofNat 8 (v.toNat % 2 ^ s.bpp) }

theorem State.cutSlots_bppsel (s : State) : s.cutSlots.bppsel = s.bppsel := rfl

/-- The packed bytes of the selected format do not see the cut (R134). -/
theorem packByte_cutSlots {s : State} {k : BitVec 5} (h : k.toNat < tileBytes s.bpp) :
    s.packByte k = s.cutSlots.packByte k := by
  apply BitVec.eq_of_getLsbD_eq
  intro n hn
  rw [packByte_getLsbD_of_lt _ _ hn, packByte_getLsbD_of_lt _ _ hn, State.cutSlots, Vector.getElem_map,
    getLsbD_low_bits (plane_lt_bpp h)]

/-- Settles O36: every plane that is read is below bpp(). -/
theorem packingTruncatesToTheLowBits : Obligations.PackingTruncatesToTheLowBits := by
  intro s k
  refine ⟨s.rdtResponse k, exec_rdt s k, ?_⟩
  rw [rdtResponse_congr (bpp_congr s.cutSlots_bppsel.symm) packByte_cutSlots]
  exact exec_rdt s.cutSlots k

/-- The block with another value in slot `q`. -/
def State.withSlot (s : State) (q : Fin 64) (v : Byte) : State := { s with tbuf := s.tbuf.set q.val v }

theorem State.withSlot_bppsel (s : State) (q : Fin 64) (v : Byte) : (s.withSlot q v).bppsel = s.bppsel := rfl

/-- Bit n of a packed byte reads one slot only, that of pixel 7 - n of the byte's row (R138). -/
theorem packByte_withSlot_getLsbD {s : State} {q : Fin 64} {v : Byte} {k : BitVec 5} {n : Nat} (hn : n < 8)
    (hq : q.val ≠ k.toNat % 16 / 2 * 8 + (7 - n)) :
    ((s.withSlot q v).packByte k).getLsbD n = (s.packByte k).getLsbD n := by
  simp only [packByte_getLsbD_of_lt _ _ hn, State.withSlot, Vector.getElem_set_ne _ _ hq]

/-- In two states of one format, RDT's answers differ in a bit of the packed byte, or not at all. -/
theorem packByte_ne_of_rdtResponse_ne {s t : State} {k : BitVec 5} {n : Nat} (hb : s.bpp = t.bpp)
    (hne : (s.rdtResponse k).getLsbD n ≠ (t.rdtResponse k).getLsbD n) :
    n < 8 ∧ (s.packByte k).getLsbD n ≠ (t.packByte k).getLsbD n := by
  obtain hk | hk := Nat.lt_or_ge k.toNat (tileBytes s.bpp)
  · rw [rdtResponse_of_lt hk, rdtResponse_of_lt (hb ▸ hk), BitVec.getLsbD_setWidth, BitVec.getLsbD_setWidth] at hne
    have hbyte : (s.packByte k).getLsbD n ≠ (t.packByte k).getLsbD n := fun h => hne (h ▸ rfl)
    refine ⟨Nat.lt_of_not_le fun hn => hbyte ?_, hbyte⟩
    rw [BitVec.getLsbD_of_ge _ _ hn, BitVec.getLsbD_of_ge _ _ hn]
  · rw [rdtResponse_of_le hk, rdtResponse_of_le (hb ▸ hk)] at hne
    exact absurd rfl hne

/-- Settles O37: a bit that differs is one of the packed byte, and the slot it reads is q. -/
theorem lanesDoNotAffectEachOther : Obligations.LanesDoNotAffectEachOther := by
  intro s q v k
  refine ⟨_, _, exec_rdt s k, exec_rdt (s.withSlot q v) k, fun n hne => ?_⟩
  obtain ⟨hn, hbyte⟩ := packByte_ne_of_rdtResponse_ne (bpp_congr (s.withSlot_bppsel q v).symm) hne
  have hq : q.val = k.toNat % 16 / 2 * 8 + (7 - n) := by
    by_contra hq
    exact hbyte (packByte_withSlot_getLsbD hn hq).symm
  omega

/-! ### The packed tile (R131 to R133, R139) -/

/-- Bits side by side, the first one highest, as a number: the sum in the source's `plane_byte` (R131). -/
def bitSum (n : Nat) (f : Nat → Bool) : Nat := ((List.range n).map fun x => (f x).toNat * 2 ^ (n - 1 - x)).sum

theorem bitSum_succ (n : Nat) (f : Nat → Bool) :
    bitSum (n + 1) f = 2 ^ n * (f 0).toNat + bitSum n fun x => f (x + 1) := by
  have hrest : (fun x => (f x).toNat * 2 ^ (n + 1 - 1 - x)) ∘ Nat.succ =
      fun x => (f (x + 1)).toNat * 2 ^ (n - 1 - x) := by
    funext x
    rw [Function.comp_apply, Nat.add_sub_cancel, Nat.succ_eq_add_one, Nat.sub_sub, Nat.add_comm 1 x]
  rw [bitSum, List.range_succ_eq_map, List.map_cons, List.sum_cons, List.map_map, hrest, Nat.mul_comm]
  rfl

theorem bitSum_lt (n : Nat) (f : Nat → Bool) : bitSum n f < 2 ^ n := by
  induction n generalizing f with
  | zero => exact Nat.one_pos
  | succ n ih =>
    have hrest := ih fun x => f (x + 1)
    have hfirst : 2 ^ n * (f 0).toNat ≤ 2 ^ n := mul_le_of_le_one_right' (f 0).toNat_le
    rw [bitSum_succ, Nat.pow_succ]
    omega

theorem bitSum_testBit {n x : Nat} (hx : x < n) (f : Nat → Bool) : (bitSum n f).testBit (n - 1 - x) = f x := by
  induction n generalizing x f with
  | zero => omega
  | succ n ih =>
    rw [bitSum_succ, Nat.testBit_two_pow_mul_add _ (bitSum_lt n _)]
    cases x with
    | zero => cases f 0 <;> simp
    | succ x =>
      have hpos : n + 1 - 1 - (x + 1) = n - 1 - x := by omega
      rw [if_pos (by omega), hpos]
      exact ih (by omega) _

/-- Bit 7 - x of the source's plane byte is bit p of index `y*8 + x` (R131). -/
theorem sourcePlaneByte_getLsbD (indices : List Byte) (y p : Nat) {x : Nat} (hx : x < 8) :
    (sourcePlaneByte indices y p).getLsbD (7 - x) = (indices.getD (y * 8 + x) 0#8).getLsbD p := by
  have hsum : sourcePlaneByte indices y p =
      BitVec.ofNat 8 (bitSum 8 fun x => (indices.getD (y * 8 + x) 0#8).getLsbD p) := rfl
  have hbit := bitSum_testBit hx fun x => (indices.getD (y * 8 + x) 0#8).getLsbD p
  rw [hsum, BitVec.getLsbD_ofNat, hbit, decide_eq_true (by omega), Bool.true_and]

/-- `pack_byte(k)` is the source's plane byte of k's row and plane (R132). -/
theorem packByte_eq_sourcePlaneByte (s : State) (k : BitVec 5) :
    s.packByte k = sourcePlaneByte s.tbuf.toList (k.toNat % 16 / 2) (2 * (k.toNat / 16) + k.toNat % 2) := by
  apply BitVec.eq_of_getLsbD_eq
  intro n hn
  have hsource := sourcePlaneByte_getLsbD s.tbuf.toList (k.toNat % 16 / 2) (2 * (k.toNat / 16) + k.toNat % 2)
    (x := 7 - n) (by omega)
  rw [Nat.sub_sub_self (by omega)] at hsource
  rw [packByte_getLsbD_of_lt _ _ hn, hsource, List.getD_eq_getElem _ _ (by simp; omega), Vector.getElem_toList]

/-- Two planes interleaved per row: byte j is of row j / 2 and of the pair's plane j % 2 (R132). -/
theorem sourcePlanePair_eq_map (indices : List Byte) (p : Nat) :
    sourcePlanePair indices p = (List.range 16).map fun j => sourcePlaneByte indices (j / 2) (p + j % 2) := rfl

/-- The 16 bytes of a plane pair, read in order (R132). -/
theorem packBytes_eq_sourcePlanePair (s : State) {pair : Nat} (hpair : pair < 2) :
    ((List.range 16).map fun j => s.packByte (BitVec.ofNat 5 (16 * pair + j))) =
      sourcePlanePair s.tbuf.toList (2 * pair) := by
  rw [sourcePlanePair_eq_map]
  refine List.map_congr_left fun j hj => ?_
  have hlt : j < 16 := List.mem_range.mp hj
  have hk : (BitVec.ofNat 5 (16 * pair + j)).toNat = 16 * pair + j := Nat.mod_eq_of_lt (by omega)
  rw [packByte_eq_sourcePlaneByte, hk]
  congr 1 <;> omega

/-- The bytes of the packed tile in order are the source's `encodeTile` of the slots (R133, R139). -/
theorem packBytes_eq_encodeTile (s : State) :
    ((List.range (tileBytes s.bpp)).map fun j => s.packByte (BitVec.ofNat 5 j)) = encodeTile s.tbuf.toList s.bpp := by
  have hlow := packBytes_eq_sourcePlanePair s (pair := 0) (by decide)
  have hhigh := packBytes_eq_sourcePlanePair s (pair := 1) (by decide)
  simp only [Nat.mul_zero, Nat.zero_add] at hlow
  obtain hb | hb := bpp_cases s
  · rw [hb]
    exact hlow.trans (List.append_nil _).symm
  · have hsplit : tileBytes 4 = 16 + 16 := rfl
    rw [hb, hsplit, List.range_add, List.map_append, List.map_map, hlow]
    exact congrArg _ hhigh

/-- Settles O38: the positions read are the legal ones, and their bytes are the source's. -/
theorem tileReadsGiveEncodeTile : Obligations.TileReadsGiveEncodeTile := by
  intro s hin
  constructor
  · have hread : ∀ j ∈ List.range (tileBytes s.bpp), ∀ l o,
        exec (.rdt (BitVec.ofNat 5 j)) (s.withChannel l o) =
          .next (s.withChannel l (o ++ [(s.packByte (BitVec.ofNat 5 j)).setWidth 32])) := by
      intro j hj l o
      have hlt : (BitVec.ofNat 5 j).toNat < tileBytes s.bpp :=
        (Nat.mod_le _ _).trans_lt (List.mem_range.mp hj)
      rw [exec_rdt, rdtResponse_of_lt (s := s.withChannel l o) hlt]
      rfl
    have hrun := run_answers (rest := []) _ _ hread (hin.trans (List.append_nil _).symm)
    rw [List.length_range] at hrun
    rw [hrun, ← packBytes_eq_encodeTile, List.map_map]
    rfl
  · rw [← packBytes_eq_encodeTile, List.length_map, List.length_range, tileBytes_bpp]

end Sys2Proof.Machine

/-! PROOFS. Command errors (60_exceptions.md): which commands raise CmdError(3) (R151), the order of the checks of a
command word (R152), and that an error writes no state (R150). -/

namespace Sys2Proof.Machine

/-! ### CmdError(3) (R151) -/

/-- The commands whose operand is not legal in the current state (R151). -/
def State.OutOfRange (s : State) : Instr → Prop
  | .setbpp b => b.toNat ≠ 2 ∧ b.toNat ≠ 4
  | .rdp i => s.count.toNat ≤ i.toNat
  | .rdpb j => 2 * s.count.toNat ≤ j.toNat
  | .rdt k => (if s.bppsel then 32 else 16) ≤ k.toNat
  | .nop | .clr | .stat | .ins _ | .lkp _ | .cvt _ | .tsel _ | .ldt _ | .ldi _ => False

theorem outOfRange_setbpp_iff {s : State} {b : BitVec 3} : s.OutOfRange (.setbpp b) ↔ bppselOf b = none := by
  rw [bppselOf_eq_none_iff, ne_eq, ne_eq, ← BitVec.toNat_inj, ← BitVec.toNat_inj]
  rfl

theorem outOfRange_rdt_iff {s : State} {k : BitVec 5} : s.OutOfRange (.rdt k) ↔ tileBytes s.bpp ≤ k.toNat := by
  rw [tileBytes_bpp]
  rfl

/-- How a command ends, said once: an operand out of range raises CmdError(3) and nothing else happens; any other command
answers without an error (R10, R150, R151). -/
theorem Effect.raises_or_responds {s t : State} {i : Instr} (h : Effect s i t) :
    (s.OutOfRange i ∧ t = s.raise .outOfRange) ∨
      (¬ s.OutOfRange i ∧ ∃ f d, t.output = s.output ++ [okWord f d]) := by
  cases h with
  | setbppBad h => exact .inl ⟨outOfRange_setbpp_iff.mpr h, rfl⟩
  | rdpBad h | rdpbBad h => exact .inl ⟨h, rfl⟩
  | rdtBad h => exact .inl ⟨outOfRange_rdt_iff.mpr h, rfl⟩
  | setbpp h => exact .inr ⟨by simp [outOfRange_setbpp_iff, h], _, _, rfl⟩
  | rdp h | rdpb h => exact .inr ⟨Nat.not_le.mpr h, _, _, rfl⟩
  | rdt h => exact .inr ⟨outOfRange_rdt_iff.not.mpr (Nat.not_le.mpr h), _, _, rfl⟩
  | nop | clr | stat | insHit | insNew | insDrop | lkpHit | lkpMiss | cvt | tsel | ldtHit | ldtMiss | ldi =>
    exact .inr ⟨id, _, _, rfl⟩

/-- Settles O15: a command either raises CmdError(3) and is out of range, or answers with ERR = 0 and is not. -/
theorem outOfRangeIsRaisedExactlyWhere : Obligations.OutOfRangeIsRaisedExactlyWhere := by
  intro i s
  obtain ⟨t, hexec, he⟩ := exec_effect i s
  rcases he.raises_or_responds with ⟨hrange, rfl⟩ | ⟨hrange, f, d, hout⟩
  · have herr := respErr_errorWord .outOfRange
    exact ⟨_, _, hexec, rfl, iff_of_true herr rfl, iff_of_true herr hrange⟩
  · have herr : ¬ respErr (okWord f d) = true := by simp
    exact ⟨t, _, hexec, hout, iff_of_false herr (okWord_ne_errorWord f d .outOfRange), iff_of_false herr hrange⟩

/-! ### The order of the checks (R152) -/

/-- Settles O7: the two errors and the command are the three answers of the decoder. -/
theorem stepChecksOpcodeThenReservedBits : Obligations.StepChecksOpcodeThenReservedBits := by
  intro s w rest hin
  cases hm : mnemonicOf (w.extractLsb' 24 8) with
  | none => exact step_of_decode_error hin (decode_eq_badOpcode_iff.mpr hm)
  | some m =>
    have hopc : opcodeField w = m.opcode := mnemonicOf_eq_some_iff.mp hm
    simp only [← operandField_toNat]
    split_ifs with hwide
    · exact step_of_decode_error hin (decode_eq_reservedBits_iff.mpr ⟨m, hopc, hwide⟩)
    · exact step_of_decode_ok hin (decode_eq_ok_iff.mpr ⟨m, hopc, Nat.lt_of_not_le hwide, rfl⟩)

/-! ### An error writes no state (R150) -/

/-- A command word answered with ERR = 1 does nothing but raise its error. -/
theorem eq_raise_of_respErr {s t : State} {w r : Word} {rest : List HostEvent} (hin : s.input = .command w :: rest)
    (hstep : step s = .next t) (hout : t.output = s.output ++ [r]) (herr : respErr r = true) :
    ∃ e, t = (s.withInput rest).raise e := by
  cases hd : decode w with
  | error e =>
    cases hstep.symm.trans (step_of_decode_error hin hd)
    exact ⟨e, rfl⟩
  | ok i =>
    have he := effect_of_exec ((step_of_decode_ok hin hd).symm.trans hstep)
    rcases he.raises_or_responds with ⟨-, ht⟩ | ⟨-, f, d, hok⟩
    · exact ⟨.outOfRange, ht⟩
    · obtain rfl : r = okWord f d := by simpa using hout.symm.trans hok
      simp at herr

/-- Settles O14: the step is `raise`, whose response is the error's word and which writes nothing else. -/
theorem commandErrorWritesNothing : Obligations.CommandErrorWritesNothing := by
  intro s t w r rest hin hstep hout herr
  obtain ⟨e, rfl⟩ := eq_raise_of_respErr hin hstep hout herr
  obtain rfl : r = errorWord e := by simpa using hout.symm
  exact ⟨rfl, e, errorWord_eq e⟩

end Sys2Proof.Machine

/-! PROOFS. Reset, the soft reset and the host procedure (70_reset_and_hazards.md): what a reset event and CLR leave
(R170, R171), that SETBPP and CLR commute (R172), how many commands the host procedure issues (R174, R181), and that it
gives the source's tile and palette streams (R173). -/

namespace Sys2Proof.Machine

/-! ### Reset and CLR (R170 to R172, R182) -/

/-- Settles O11: with an empty channel there is no event to perform (log entry 5). -/
theorem idleStepChangesNothing : Obligations.IdleStepChangesNothing := by
  intro s h
  rw [step, serve, h]

/-- Settles O41: the step is `powerOnReset`, whatever command is lost. -/
theorem resetEventGivesTheResetValues : Obligations.ResetEventGivesTheResetValues := by
  intro s lost rest h
  exact ⟨(s.withInput rest).powerOnReset, step_of_input h, rfl, rfl, rfl, rfl, fun n => Vector.getElem_replicate n.isLt,
    rfl, rfl⟩

/-- Settles O42: `clear` writes every reset value but BPPSEL's. -/
theorem clrIsTheSoftReset : Obligations.ClrIsTheSoftReset :=
  fun _ => ⟨_, Effect.clr.exec_eq, rfl, rfl, rfl, rfl, rfl, rfl⟩

/-- Settles O20: a legal SETBPP writes BPPSEL only, CLR writes everything else, and both answer 0. -/
theorem setbppAndClrCommute : Obligations.SetbppAndClrCommute := by
  intro s b
  cases h : bppselOf b with
  | none =>
    obtain ⟨h2, h4⟩ := (outOfRange_setbpp_iff (s := s)).mpr h
    exact ⟨_, _, s, (Effect.setbppBad h).exec_eq, Effect.clr.exec_eq, fun hb => absurd hb (not_or.mpr ⟨h2, h4⟩)⟩
  | some sel =>
    exact ⟨_, _, _, (Effect.setbpp h).exec_eq, Effect.clr.exec_eq,
      fun _ => ⟨Effect.clr.exec_eq, (Effect.setbpp h).exec_eq⟩⟩

/-! ### The number of commands (R181) -/

theorem extractPhase_length (img : Image) : (extractPhase img).length = img.height * img.width := by
  simp [extractPhase, List.length_flatMap]

theorem tileTriples_length (img : Image) (tx ty : Nat) : (tileTriples img tx ty).length = 64 := by
  simp [tileTriples, List.length_flatMap]

theorem readTile_length (b : Nat) : (readTile b).length = tileBytes b := by
  simp [readTile]

theorem tileGrid_length (img : Image) : (tileGrid img).length = img.height / 8 * (img.width / 8) := by
  simp [tileGrid, List.length_flatMap]

theorem encodePhase_length (img : Image) (b : Nat) :
    (encodePhase img b).length = img.height / 8 * (img.width / 8) * (64 + tileBytes b) := by
  simp [encodePhase, List.length_flatMap, tileTriples_length, readTile_length, tileGrid_length]

theorem readPalette_length (count : Nat) : (readPalette count).length = 2 * count := by
  simp [readPalette]

/-- Settles O53, by the lengths of the procedure's phases. -/
theorem hostProcedureCommandCount : Obligations.HostProcedureCommandCount := by
  intro img b count
  refine ⟨fun h => if_neg (by omega), fun hw hh => ⟨_, if_pos ⟨hw, hh⟩, ?_⟩⟩
  simp only [List.length_append, List.length_cons, List.length_nil, extractPhase_length, encodePhase_length,
    readPalette_length]
  ring

/-! ### The bytes the host collects (R173) -/

/-- The bytes the host appends to the stream of the commands of mnemonic `m`: DATA[7:0] of their responses, in order. -/
def dataBytes (m : Mnemonic) (cmds : List Instr) (rs : List Word) : List Byte :=
  ((cmds.zip rs).filter fun p => decide (p.1.mnemonic = m)).map fun p => p.2.extractLsb' 0 8

theorem tileStream_eq_dataBytes (cmds : List Instr) (rs : List Word) :
    tileStream cmds rs = dataBytes .rdt cmds rs := rfl

theorem paletteStream_eq_dataBytes (cmds : List Instr) (rs : List Word) :
    paletteStream cmds rs = dataBytes .rdpb cmds rs := rfl

section dataBytes
variable {m : Mnemonic} {cmds : List Instr}

theorem dataBytes_append {cmds' : List Instr} {rs rs' : List Word} (h : cmds.length = rs.length) :
    dataBytes m (cmds ++ cmds') (rs ++ rs') = dataBytes m cmds rs ++ dataBytes m cmds' rs' := by
  simp only [dataBytes, List.zip_append h, List.filter_append, List.map_append]

/-- Nothing is collected from other commands. -/
theorem dataBytes_eq_nil {rs : List Word} (h : ∀ i ∈ cmds, i.mnemonic ≠ m) : dataBytes m cmds rs = [] := by
  rw [dataBytes, List.map_eq_nil_iff, List.filter_eq_nil_iff]
  intro p hp
  simpa using h p.1 (List.of_mem_zip hp).1

/-- Responses that are bytes, one to each command of mnemonic `m`, are collected as these bytes. -/
theorem dataBytes_eq_bytes {bytes : List Byte} (h : ∀ i ∈ cmds, i.mnemonic = m) (hlen : cmds.length = bytes.length) :
    dataBytes m cmds (bytes.map fun b => b.setWidth 32) = bytes := by
  have hall : ∀ p ∈ cmds.zip (bytes.map fun b => b.setWidth 32), decide (p.1.mnemonic = m) = true :=
    fun p hp => decide_eq_true (h p.1 (List.of_mem_zip hp).1)
  have hbyte (b : Byte) : (b.setWidth 32).extractLsb' 0 8 = b := by
    rw [extractLsb'_zero_eq_ofNat, BitVec.toNat_setWidth_of_le (by decide), BitVec.ofNat_toNat, BitVec.setWidth_eq]
  have hzip : (cmds.zip (bytes.map fun b => b.setWidth 32)).map Prod.snd = bytes.map fun b => b.setWidth 32 :=
    List.map_snd_zip (by rw [List.length_map, hlen])
  rw [dataBytes, List.filter_eq_self.mpr hall, ← Function.comp_def (fun r : Word => r.extractLsb' 0 8) Prod.snd,
    ← List.map_map, hzip, List.map_map]
  exact List.map_id'' hbyte bytes

end dataBytes

/-! ### Runs of the host's commands -/

/-- The host sends `cmds` in state `s`; the block answers `rs` and ends in `t`, and from these responses the host
collects `tiles` and `palette`. -/
structure HostRun (s t : State) (cmds : List Instr) (rs : List Word) (tiles palette : List Byte) : Prop where
  run_eq : run cmds.length s = .next t
  input_eq : s.input = commandEvents cmds ++ t.input
  output_eq : t.output = s.output ++ rs
  length_eq : cmds.length = rs.length
  tiles_eq : tileStream cmds rs = tiles
  palette_eq : paletteStream cmds rs = palette

theorem commandEvents_append (cmds cmds' : List Instr) :
    commandEvents (cmds ++ cmds') = commandEvents cmds ++ commandEvents cmds' := List.map_append

/-- The commands whose responses the host collects no byte of. -/
def Uncollected (i : Instr) : Prop := i.mnemonic ≠ .rdt ∧ i.mnemonic ≠ .rdpb

section hostRun
variable {s t u : State} {cmds cmds' : List Instr} {rs rs' : List Word} {tiles tiles' palette palette' : List Byte}

theorem HostRun.nil (s : State) : HostRun s s [] [] [] [] :=
  ⟨run_zero s, rfl, (List.append_nil _).symm, rfl, rfl, rfl⟩

/-- Two runs, one after the other: their responses and the bytes collected stand one after the other. -/
theorem HostRun.append (h : HostRun s t cmds rs tiles palette) (h' : HostRun t u cmds' rs' tiles' palette') :
    HostRun s u (cmds ++ cmds') (rs ++ rs') (tiles ++ tiles') (palette ++ palette') where
  run_eq := by rw [List.length_append, run_add _ h.run_eq, h'.run_eq]
  input_eq := by rw [h.input_eq, h'.input_eq, commandEvents_append, List.append_assoc]
  output_eq := by rw [h'.output_eq, h.output_eq, List.append_assoc]
  length_eq := by rw [List.length_append, List.length_append, h.length_eq, h'.length_eq]
  tiles_eq := by
    rw [tileStream_eq_dataBytes, dataBytes_append h.length_eq]
    exact congrArg₂ _ h.tiles_eq h'.tiles_eq
  palette_eq := by
    rw [paletteStream_eq_dataBytes, dataBytes_append h.length_eq]
    exact congrArg₂ _ h.palette_eq h'.palette_eq

/-- A run leaves what the host sends after it. -/
theorem HostRun.next_input {rest : List HostEvent} (h : HostRun s t cmds rs tiles palette)
    (hin : s.input = commandEvents cmds ++ rest) : t.input = rest :=
  List.append_cancel_left (h.input_eq.symm.trans hin)

/-- A run of commands that the host collects no byte of. -/
theorem HostRun.of_uncollected (hrun : run cmds.length s = .next t) (hin : s.input = commandEvents cmds ++ t.input)
    (hout : t.output = s.output ++ rs) (hlen : cmds.length = rs.length) (h : ∀ i ∈ cmds, Uncollected i) :
    HostRun s t cmds rs [] [] :=
  ⟨hrun, hin, hout, hlen, dataBytes_eq_nil fun i hi => (h i hi).1, dataBytes_eq_nil fun i hi => (h i hi).2⟩

/-- One command whose response is not collected. -/
theorem HostRun.of_exec {i : Instr} {r : Word} {rest : List HostEvent} (hin : s.input = commandEvents [i] ++ rest)
    (hexec : exec i (s.withInput rest) = .next t) (hout : t.output = s.output ++ [r]) (hi : Uncollected i) :
    HostRun s t [i] [r] [] [] := by
  obtain ⟨hrest, -⟩ := (effect_of_exec hexec).channel
  refine .of_uncollected ?_ ?_ hout rfl (List.forall_mem_singleton.mpr hi)
  · exact (run_succ ((step_of_command hin).trans hexec) 0).trans (run_zero t)
  · rw [hin, hrest]
    rfl

end hostRun

/-! ### What holds between the phases -/

/-- The palette is that of the triples `seen`, the format is b bpp, and the next load goes to slot 0. -/
structure Ready (s : State) (seen : List Rgb) (b : Nat) : Prop where
  palette : HoldsFirst s seen
  bpp_eq : s.bpp = b
  tptr_eq : s.tptr = 0#6

/-- Readiness does not speak of TBUF, nor of the channel. -/
theorem Ready.frame {s t : State} {seen : List Rgb} {b : Nat} (h : Ready s seen b) (hsame : SamePalette s t)
    (hbppsel : t.bppsel = s.bppsel) (htptr : t.tptr = s.tptr) : Ready t seen b where
  palette := h.palette.of_samePalette hsame
  bpp_eq := (bpp_congr hbppsel).trans h.bpp_eq
  tptr_eq := htptr.trans h.tptr_eq

/-! ### SETBPP and CLR -/

theorem bppselOf_legal {b : Nat} (hb : b = 2 ∨ b = 4) :
    ∃ sel, bppselOf (BitVec.ofNat 3 b) = some sel ∧ (if sel then 4 else 2) = b := by
  rcases hb with rfl | rfl
  · exact ⟨false, rfl, rfl⟩
  · exact ⟨true, rfl, rfl⟩

/-- From any state, SETBPP b and CLR make the block ready for the first pixel (R172). -/
theorem hostRun_setup {s : State} {b : Nat} {rest : List HostEvent} (hb : b = 2 ∨ b = 4)
    (hin : s.input = commandEvents [.setbpp (BitVec.ofNat 3 b), .clr] ++ rest) :
    ∃ t, HostRun s t [.setbpp (BitVec.ofNat 3 b), .clr] [0#32, 0#32] [] [] ∧ Ready t [] b := by
  obtain ⟨sel, hsel, hbpp⟩ := bppselOf_legal hb
  have hset := HostRun.of_exec (rest := commandEvents [.clr] ++ rest) hin (exec_setbpp_of_legal hsel _) rfl
    ⟨nofun, nofun⟩
  exact ⟨_, hset.append (.of_exec (rest := rest) rfl Effect.clr.exec_eq rfl ⟨nofun, nofun⟩),
    holdsFirst_of_empty rfl rfl, hbpp, rfl⟩

/-! ### The extract phase -/

/-- Numbering the pixels row by row counts through them (R173). -/
theorem flatMap_rows {α : Type} (h w : Nat) (f : Nat → α) :
    ((List.range h).flatMap fun y => (List.range w).map fun x => f (y * w + x)) = (List.range (h * w)).map f := by
  induction h with
  | zero => simp
  | succ h ih =>
    rw [List.range_succ, List.flatMap_append, ih, Nat.succ_mul, List.range_add, List.map_append]
    simp [Function.comp_def]

/-- The extract phase inserts the image's pixels in their order. -/
theorem extractPhase_eq {img : Image} (h : img.pixels.length = img.width * img.height) :
    extractPhase img = img.pixels.map .ins := by
  have hrows : extractPhase img =
      (List.range (img.height * img.width)).map fun n => Instr.ins (img.pixels.getD n 0#24) :=
    flatMap_rows img.height img.width fun n => Instr.ins (img.pixels.getD n 0#24)
  rw [hrows, Nat.mul_comm, ← h]
  apply List.ext_getElem
  · simp
  · intro n _ hn
    rw [List.length_map] at hn
    simp [hn]

/-- INS of a triple lets the palette see it and keeps the format and the slot pointer. -/
theorem hostRun_insert {s : State} {seen : List Rgb} {b : Nat} {rgb : Rgb} {rest : List HostEvent} (h : Ready s seen b)
    (hin : s.input = commandEvents [.ins rgb] ++ rest) :
    ∃ t r, HostRun s t [.ins rgb] [r] [] [] ∧ Ready t (seeTriple seen rgb) b := by
  obtain ⟨t, hexec, he⟩ := exec_effect (.ins rgb) (s.withInput rest)
  obtain ⟨r, -, hout⟩ := he.answers
  have hbppsel : t.bppsel = s.bppsel := by
    by_contra hw
    cases he.bppsel_writers hw
  have htptr : t.tptr = s.tptr := by
    by_contra hw
    rcases he.tptr_writers hw with h | h | h | h <;> cases h
  refine ⟨t, r, .of_exec hin hexec hout ⟨nofun, nofun⟩, ?_, ?_, htptr.trans h.tptr_eq⟩
  · exact h.palette.step ⟨rest, hin⟩ ((step_of_command hin).trans hexec)
  · exact (bpp_congr hbppsel).trans h.bpp_eq

/-- INS of the pixels in their order lets the palette see them all. -/
theorem hostRun_extract {s : State} {seen ts : List Rgb} {b : Nat} {rest : List HostEvent} (h : Ready s seen b)
    (hin : s.input = commandEvents (ts.map .ins) ++ rest) :
    ∃ t rs, HostRun s t (ts.map .ins) rs [] [] ∧ Ready t (ts.foldl seeTriple seen) b := by
  induction ts generalizing s seen with
  | nil => exact ⟨s, [], .nil s, h⟩
  | cons rgb ts ih =>
    obtain ⟨t, r, hfirst, ht⟩ := hostRun_insert (rest := commandEvents (ts.map .ins) ++ rest) h hin
    obtain ⟨u, rs, hrest, hu⟩ := ih ht (hfirst.next_input hin)
    exact ⟨u, r :: rs, hfirst.append hrest, hu⟩

/-! ### STAT -/

theorem HoldsFirst.count_eq_sourcePalette {s : State} {ts : List Rgb} (h : HoldsFirst s (distinctTriples ts)) :
    s.count.toNat = (sourcePalette ts).length := by
  rw [h.count_eq, sourcePalette, List.length_take]

/-- STAT writes nothing, and its response shows COUNT in its low 9 bits (R30). -/
theorem hostRun_stat {s : State} {seen : List Rgb} {b : Nat} {rest : List HostEvent} (h : Ready s seen b)
    (hin : s.input = commandEvents [.stat] ++ rest) :
    ∃ t r, HostRun s t [.stat] [r] [] [] ∧ Ready t seen b ∧ r.toNat % 512 = s.count.toNat := by
  refine ⟨_, _, .of_exec hin (exec_stat _) rfl ⟨nofun, nofun⟩, h.frame ⟨rfl, rfl, rfl, rfl⟩ rfl rfl, ?_⟩
  have hcount : s.count.toNat < 512 := s.count.isLt
  simp only [BitVec.toNat_ofNat, State.withInput_count]
  omega

/-! ### The encode phase -/

/-- The value LDT loads is the source's lookup in the valid keys (R120, R123). -/
theorem loadResult_ldt_value (s : State) (rgb : Rgb) : (s.loadResult (.ldt rgb)).1 = sourceLookup s.validKeys rgb := by
  cases h : s.find rgb with
  | some i =>
    have hi : s.validKeys.findIdx? (fun u => u == rgb) = some i := h
    rw [loadResult_ldt_of_find h, sourceLookup, hi, Option.getD_some]
  | none =>
    have hi : s.validKeys.findIdx? (fun u => u == rgb) = none := h
    rw [loadResult_ldt_of_absent (find_eq_none_iff.mp h), sourceLookup, hi, Option.getD_none]

/-- 64 LDT from slot 0 load the lookups of their triples and bring TPTR back to 0 (R29, R122). -/
theorem hostRun_loads {s : State} {seen ts : List Rgb} {b : Nat} {rest : List HostEvent} (h : Ready s seen b)
    (hlen : ts.length = 64) (hin : s.input = commandEvents (ts.map .ldt) ++ rest) :
    ∃ t rs, HostRun s t (ts.map .ldt) rs [] [] ∧ Ready t seen b ∧
      t.tbuf.toList = ts.map (sourceLookup (seen.take 256)) := by
  have hload : ∀ i ∈ ts.map Instr.ldt, IsLoad i := List.forall_mem_map.mpr fun rgb _ => .inl ⟨rgb, rfl⟩
  have hquiet : ∀ i ∈ ts.map Instr.ldt, Uncollected i := List.forall_mem_map.mpr fun rgb _ => ⟨nofun, nofun⟩
  have hvalues : (ts.map Instr.ldt).map (fun i => (s.loadResult i).1) = ts.map (sourceLookup (seen.take 256)) := by
    rw [List.map_map, ← h.palette.keys_eq]
    exact List.map_congr_left fun rgb _ => loadResult_ldt_value s rgb
  obtain ⟨tile, htile⟩ : ∃ tile : Vector Byte 64, tile.toList = ts.map (sourceLookup (seen.take 256)) :=
    ⟨⟨(ts.map (sourceLookup (seen.take 256))).toArray, by simp [hlen]⟩, rfl⟩
  have hrun := run_loads hload hin
  rw [hvalues, ← htile, State.loadSlots_tile h.tptr_eq] at hrun
  exact ⟨_, _, .of_uncollected hrun hin rfl (List.length_map _).symm hquiet,
    h.frame ⟨rfl, rfl, rfl, rfl⟩ rfl rfl, htile⟩

/-- RDT of a legal position answers the packed byte and writes nothing (R137). -/
theorem exec_rdt_of_lt {s : State} {k : BitVec 5} (h : k.toNat < tileBytes s.bpp) :
    exec (.rdt k) s = .next { s with output := s.output ++ [(s.packByte k).setWidth 32] } := by
  rw [exec_rdt, rdtResponse_of_lt h]

/-- RDT at every legal position collects the packed tile and writes nothing (R137, R139). -/
theorem hostRun_readTile {s : State} {seen : List Rgb} {b : Nat} {rest : List HostEvent} (h : Ready s seen b)
    (hin : s.input = commandEvents (readTile b) ++ rest) :
    ∃ t rs, HostRun s t (readTile b) rs (encodeTile s.tbuf.toList b) [] ∧ Ready t seen b := by
  obtain rfl := h.bpp_eq
  have hread : ∀ k ∈ List.range (tileBytes s.bpp), ∀ l o, exec (.rdt (BitVec.ofNat 5 k)) (s.withChannel l o) =
      .next (s.withChannel l (o ++ [(s.packByte (BitVec.ofNat 5 k)).setWidth 32])) :=
    fun k hk l o => exec_rdt_of_lt (s := s.withChannel l o) ((Nat.mod_le _ _).trans_lt (List.mem_range.mp hk))
  have hbytes : (List.range (tileBytes s.bpp)).map (fun k => (s.packByte (BitVec.ofNat 5 k)).setWidth 32) =
      (encodeTile s.tbuf.toList s.bpp).map fun v => v.setWidth 32 := by
    rw [← packBytes_eq_encodeTile, List.map_map]
    rfl
  have hlen : (readTile s.bpp).length = (encodeTile s.tbuf.toList s.bpp).length := by
    rw [readTile_length, ← packBytes_eq_encodeTile, List.length_map, List.length_range]
  have hrun := run_answers _ _ hread hin
  rw [hbytes, List.length_range, ← readTile_length] at hrun
  have hrdt : ∀ i ∈ readTile s.bpp, i.mnemonic = .rdt := List.forall_mem_map.mpr fun _ _ => rfl
  have hrdpb : ∀ i ∈ readTile s.bpp, i.mnemonic ≠ .rdpb := List.forall_mem_map.mpr fun _ _ => nofun
  refine ⟨_, _, ⟨hrun, hin, rfl, ?_, dataBytes_eq_bytes hrdt hlen, dataBytes_eq_nil hrdpb⟩,
    h.frame ⟨rfl, rfl, rfl, rfl⟩ rfl rfl⟩
  rw [List.length_map, hlen]

/-- The commands of one tile of the encode phase. -/
def tileCommands (img : Image) (b : Nat) (g : Nat × Nat) : List Instr :=
  (tileTriples img g.1 g.2).map .ldt ++ readTile b

theorem encodePhase_eq (img : Image) (b : Nat) : encodePhase img b = (tileGrid img).flatMap (tileCommands img b) := rfl

/-- One tile is collected as the source's tile. -/
theorem hostRun_tile {s : State} {img : Image} {b : Nat} {g : Nat × Nat} {rest : List HostEvent}
    (h : Ready s (distinctTriples img.pixels) b) (hin : s.input = commandEvents (tileCommands img b g) ++ rest) :
    ∃ t rs, HostRun s t (tileCommands img b g) rs (sourceTile img b g.1 g.2) [] ∧
      Ready t (distinctTriples img.pixels) b := by
  rw [tileCommands, commandEvents_append, List.append_assoc] at hin
  obtain ⟨t, rs, hloads, ht, htile⟩ := hostRun_loads h (tileTriples_length img g.1 g.2) hin
  obtain ⟨u, rs', hreads, hu⟩ := hostRun_readTile ht (hloads.next_input hin)
  rw [htile] at hreads
  exact ⟨u, rs ++ rs', hloads.append hreads, hu⟩

/-- The tiles are collected in the order in which they are sent. -/
theorem hostRun_tiles {s : State} {img : Image} {b : Nat} {grid : List (Nat × Nat)} {rest : List HostEvent}
    (h : Ready s (distinctTriples img.pixels) b)
    (hin : s.input = commandEvents (grid.flatMap (tileCommands img b)) ++ rest) :
    ∃ t rs, HostRun s t (grid.flatMap (tileCommands img b)) rs (grid.flatMap fun g => sourceTile img b g.1 g.2) [] ∧
      Ready t (distinctTriples img.pixels) b := by
  induction grid generalizing s with
  | nil => exact ⟨s, [], .nil s, h⟩
  | cons g grid ih =>
    rw [List.flatMap_cons, commandEvents_append, List.append_assoc] at hin
    obtain ⟨t, rs, hfirst, ht⟩ := hostRun_tile h hin
    obtain ⟨u, rs', hrest, hu⟩ := ih ht (hfirst.next_input hin)
    exact ⟨u, rs ++ rs', hfirst.append hrest, hu⟩

/-! ### The palette -/

/-- RDPB at every legal position collects the serialized palette (R107). -/
theorem hostRun_readPalette {s : State} {ts : List Rgb} (h : HoldsFirst s (distinctTriples ts))
    (hin : s.input = commandEvents (readPalette (sourcePalette ts).length)) :
    ∃ t rs, HostRun s t (readPalette (sourcePalette ts).length) rs [] (serializePalette (sourcePalette ts)) := by
  have hkeys : s.key.toList.take s.count.toNat = sourcePalette ts := h.keys_eq
  have hcount := h.count_eq_sourcePalette
  obtain ⟨hrun, -⟩ := paletteReadsGiveTheSerializedPalette s h.inv (hcount ▸ hin)
  rw [hkeys, hcount, ← readPalette_length] at hrun
  have hlen : (readPalette (sourcePalette ts).length).length = (serializePalette (sourcePalette ts)).length := by
    rw [readPalette_length, serializePalette_length]
  have hrdpb : ∀ i ∈ readPalette (sourcePalette ts).length, i.mnemonic = .rdpb :=
    List.forall_mem_map.mpr fun _ _ => rfl
  have hrdt : ∀ i ∈ readPalette (sourcePalette ts).length, i.mnemonic ≠ .rdt :=
    List.forall_mem_map.mpr fun _ _ => nofun
  refine ⟨_, _, hrun, hin.trans (List.append_nil _).symm, rfl, ?_, dataBytes_eq_nil hrdt, dataBytes_eq_bytes hrdpb hlen⟩
  rw [List.length_map, hlen]

/-! ### The whole procedure (R173) -/

/-- Settles O54, phase by phase. -/
theorem hostProcedureGivesTheSourceOutput : Obligations.HostProcedureGivesTheSourceOutput := by
  intro img b hb hpixels hw hh
  refine ⟨_, if_pos ⟨hw, hh⟩, fun s hin => ?_⟩
  rw [extractPhase_eq hpixels, encodePhase_eq] at hin ⊢
  simp only [commandEvents_append, List.append_assoc] at hin
  obtain ⟨s₁, hsetup, h₁⟩ := hostRun_setup hb hin
  have hin₁ := hsetup.next_input hin
  obtain ⟨s₂, rs₂, hextract, h₂⟩ := hostRun_extract h₁ hin₁
  have hin₂ := hextract.next_input hin₁
  rw [foldl_seeTriple_nil] at h₂
  obtain ⟨s₃, r, hstat, h₃, hr⟩ := hostRun_stat h₂ hin₂
  have hin₃ := hstat.next_input hin₂
  obtain ⟨s₄, rs₄, hencode, h₄⟩ := hostRun_tiles h₃ hin₃
  obtain ⟨t, rs₅, hpalette⟩ := hostRun_readPalette h₄.palette (hencode.next_input hin₃)
  have hall := (((hsetup.append hextract).append hstat).append hencode).append hpalette
  refine ⟨t, _, hall.run_eq, hall.output_eq, hall.tiles_eq.trans ?_, hall.palette_eq, ?_⟩
  · simp [sourceTiles]
  · have hpos : ([0#32, 0#32] ++ rs₂).length = 2 + img.width * img.height := by
      rw [List.length_append, ← hextract.length_eq, List.length_map, hpixels]
      rfl
    rw [← h₂.palette.count_eq_sourcePalette, ← hr, ← hpos, List.append_assoc, List.append_assoc,
      List.getD_append_right _ _ _ _ le_rfl, Nat.sub_self]
    rfl

end Sys2Proof.Machine
